-- ==== Sys2Proof/Word.lean ====
section
/-! DEFINITION. The word types of the block (spec 00_scope R6 to R9, 44 R98). -/

namespace Sys2Proof

/-- One byte of a command, a buffer or a response. -/
abbrev Byte := BitVec 8

/-- A frame's 16-bit pattern, read as two's complement where a rule says `i16` (R7). -/
abbrev Sample := BitVec 16

/-- `u32`: the parameter registers and the header word (R8, R57). -/
abbrev U32 := BitVec 32

/-- `u64`: the counters (R9). -/
abbrev U64 := BitVec 64

/-- A binary64 register: its IEEE 754 bit pattern (R6, R61). -/
abbrev F64 := BitVec 64

end Sys2Proof
end

