-- ==== Sys2Proof/Config.lean ====
section
/-! DEFINITION. The implementation parameters of spec 00_scope R6 to R13 and the model's free values. -/

namespace Sys2Proof

/-- The policies for a ramp whose timer is 0. The spec gives rules for one (R12, R74). -/
inductive ZeroTimerPolicy where
  | instant
deriving DecidableEq, Repr

/-- The parameters "the model takes from its configuration" (00_scope section 3) that are values. The widths
`SAMPLE_BITS`, `PARAM_BITS`, `FRAME_BITS` (R7 to R9) and the format `NUMERIC` (R6) are the types of `Word.lean`. -/
structure Config where
  /-- `EXP_DEFAULT` (R10). -/
  expDefault : F64
  /-- `INIT_FLOOR_GAIN` (R11). -/
  initFloorGain : F64
  /-- `INIT_CEIL_GAIN` (R11). -/
  initCeilGain : F64
  /-- `ZERO_TIMER_POLICY` (R12). -/
  zeroTimerPolicy : ZeroTimerPolicy
  /-- `MAX_FEED_BYTES` (R13). -/
  maxFeedBytes : Nat
deriving DecidableEq, Repr

/-- The values this hardware has (R10 to R13). -/
def config : Config where
  expDefault := 0x3FECCCCCCCCCCCCD#64
  initFloorGain := 0x0000000000000000#64
  initCeilGain := 0x0000000000000000#64
  zeroTimerPolicy := .instant
  maxFeedBytes := 2 ^ 32 - 1

/-- The binary64 operations that can deliver a NaN. -/
inductive FloatOp where
  | add | sub | mul | div
deriving DecidableEq, Repr

/-- DESIGN CHOICE (log 2), safe. FREE VALUE: the sign bit (bit 51) and the 51 low fraction bits of the quiet NaN that an
operation delivers on these operands. The spec names no pattern, so nothing here does. -/
opaque Config.nanChoice : FloatOp → F64 → F64 → BitVec 52

/-- DESIGN CHOICE (log 3), safe. FREE VALUE: `trunc` of an infinity, for which R14 states no integer. -/
opaque Config.truncInfinity : F64 → Int

end Sys2Proof
end

