-- ==== Sys2Proof/Syntax.lean ====
section
/-! DEFINITION. The host commands: one constructor per row of spec/opcode_table.json (30_encoding R58 to R60). -/

namespace Sys2Proof

/-- A host command with its operands, in the operand order of R60. In the two constructions `exp = none` is the
form D = 1 (`EXP_DEFAULT` used) and `exp = some e` the form D = 0 (R57). A FEED's length operand `n` is the length
of its data. -/
inductive Instr where
  /-- INIT.C (R103). -/
  | initC (attack release threshold : U32) (exp : Option F64)
  /-- INIT.G (R104): `hold` stands before `release`. -/
  | initG (attack hold release threshold : U32) (exp : Option F64)
  /-- FEED (R106) with its bytes `IN[0..n-1]`. -/
  | feed (data : List Byte)
  /-- GET.ATTACK (R108). -/
  | getAttack
  /-- GET.RELEASE (R109). -/
  | getRelease
  /-- GET.HOLD (R110). -/
  | getHold
  /-- GET.THRESHOLD (R111). -/
  | getThreshold
  /-- SET.ATTACK (R112). -/
  | setAttack (value : U32)
  /-- SET.RELEASE (R113). -/
  | setRelease (value : U32)
  /-- SET.HOLD (R114). -/
  | setHold (value : U32)
  /-- SET.THRESHOLD (R115). -/
  | setThreshold (value : U32)
deriving DecidableEq, Repr

/-- The parameter registers that the REG field of GET and SET names (R59). -/
inductive ParamReg where
  | attack | release | hold | threshold
deriving DecidableEq, Repr

end Sys2Proof
end

