-- ==== Sys2Proof/WellFormed.lean ====
section
/-! DEFINITION. Which instruction terms the command format can carry (30_encoding R60, 00_scope R13). -/

namespace Sys2Proof

/-- A FEED's length must fit its 32-bit length field (R13); every other operand fits by its type. -/
def wellFormed : Instr → Bool
  | .feed data => decide (data.length ≤ config.maxFeedBytes)
  | .initC _ _ _ _ => true
  | .initG _ _ _ _ _ => true
  | .getAttack => true
  | .getRelease => true
  | .getHold => true
  | .getThreshold => true
  | .setAttack _ => true
  | .setRelease _ => true
  | .setHold _ => true
  | .setThreshold _ => true

end Sys2Proof
end

