-- ==== Sys2Proof/Decode.lean ====
section
/-! DEFINITION. The command decoder of 30_encoding R56 to R65, total on any bytes, and the encoder of R57 to R61. -/

namespace Sys2Proof

/-- Why no instruction was decoded. -/
inductive Reject where
  /-- R63 calls the header illegal; `rest` is what follows its four bytes, of which R64 reads none. -/
  | illegalHeader (h : U32) (rest : List Byte)
  /-- The bytes end before the length of R60: a transport error (R65). -/
  | incomplete
deriving DecidableEq, Repr

/-- The command a legal header names, before its operands are read. -/
inductive Command where
  | initC (d : Bool)
  | initG (d : Bool)
  | feed
  | get (r : ParamReg)
  | set (r : ParamReg)
deriving DecidableEq, Repr

/-- A u32 field, least significant byte first (R60), and the bytes after it. -/
def takeU32 : List Byte → Option (U32 × List Byte)
  | b0 :: b1 :: b2 :: b3 :: rest => some (b3 ++ b2 ++ b1 ++ b0, rest)
  | _ => none

/-- An f64 field: 8 bytes, least significant byte first, the pattern taken as it stands (R61). -/
def takeF64 (bs : List Byte) : Option (F64 × List Byte) := do
  let (lo, bs) ← takeU32 bs
  let (hi, bs) ← takeU32 bs
  return (hi ++ lo, bs)

/-- The `exp` operand: absent when D = 1, an f64 when D = 0 (R57, R60). -/
def takeExp (d : Bool) (bs : List Byte) : Option (Option F64 × List Byte) :=
  if d then some (none, bs) else do
    let (e, bs) ← takeF64 bs
    return (some e, bs)

/-- OP = H[31:24] (R57). -/
def headerOp (h : U32) : BitVec 8 := h.extractLsb' 24 8
/-- REG = H[23:16] (R57). -/
def headerReg (h : U32) : BitVec 8 := h.extractLsb' 16 8
/-- RSV = H[15:1] (R57). -/
def headerRsv (h : U32) : BitVec 15 := h.extractLsb' 1 15
/-- D = H[0] (R57). -/
def headerD (h : U32) : Bool := h.getLsbD 0

/-- The parameter register numbers of R59. -/
def paramOfReg (r : BitVec 8) : Option ParamReg :=
  if r = 0x00#8 then some .attack
  else if r = 0x01#8 then some .release
  else if r = 0x02#8 then some .hold
  else if r = 0x03#8 then some .threshold
  else none

/-- `decode(H)` of R63; `none` is "illegal". -/
def decodeHeader (h : U32) : Option Command :=
  let op := headerOp h
  let reg := headerReg h
  let d := headerD h
  if headerRsv h ≠ 0#15 then none
  else if op = 0x01#8 then if reg = 0x00#8 then some (.initC d) else none
  else if op = 0x02#8 then if reg = 0x00#8 then some (.initG d) else none
  else if op = 0x10#8 then if reg = 0x00#8 ∧ d = false then some .feed else none
  else if op = 0x20#8 then if d = false then (paramOfReg reg).map .get else none
  else if op = 0x21#8 then if d = false then (paramOfReg reg).map .set else none
  else none

/-- The GET instruction of a register. -/
def getInstr : ParamReg → Instr
  | .attack => .getAttack
  | .release => .getRelease
  | .hold => .getHold
  | .threshold => .getThreshold

/-- The SET instruction of a register. -/
def setInstr (v : U32) : ParamReg → Instr
  | .attack => .setAttack v
  | .release => .setRelease v
  | .hold => .setHold v
  | .threshold => .setThreshold v

/-- The operand fields of R60, in order; `none` where the bytes end too soon. -/
def decodeOperands (c : Command) (bs : List Byte) : Option (Instr × List Byte) :=
  match c with
  | .initC d => do
    let (a, bs) ← takeU32 bs
    let (r, bs) ← takeU32 bs
    let (t, bs) ← takeU32 bs
    let (e, bs) ← takeExp d bs
    return (.initC a r t e, bs)
  | .initG d => do
    let (a, bs) ← takeU32 bs
    let (h, bs) ← takeU32 bs
    let (r, bs) ← takeU32 bs
    let (t, bs) ← takeU32 bs
    let (e, bs) ← takeExp d bs
    return (.initG a h r t e, bs)
  | .feed => do
    let (n, bs) ← takeU32 bs
    if n.toNat ≤ bs.length then return (.feed (bs.take n.toNat), bs.drop n.toNat) else none
  | .get r => some (getInstr r, bs)
  | .set r => do
    let (v, bs) ← takeU32 bs
    return (setInstr v r, bs)

/-- One command off the front of the host's bytes, and the bytes after it (R56, R63, R65). -/
def decode (bs : List Byte) : Except Reject (Instr × List Byte) :=
  match takeU32 bs with
  | none => .error .incomplete
  | some (h, rest) =>
    match decodeHeader h with
    | none => .error (.illegalHeader h rest)
    | some c =>
      match decodeOperands c rest with
      | none => .error .incomplete
      | some r => .ok r

/-- A 32-bit word as 4 bytes, least significant first (R56, R60). -/
def leBytes32 (w : U32) : List Byte :=
  [w.extractLsb' 0 8, w.extractLsb' 8 8, w.extractLsb' 16 8, w.extractLsb' 24 8]

/-- A 64-bit word as 8 bytes, least significant first (R61). -/
def leBytes64 (w : U64) : List Byte :=
  leBytes32 (w.extractLsb' 0 32) ++ leBytes32 (w.extractLsb' 32 32)

/-- The header word of R57 with RSV = 0. -/
def headerWord (op reg : BitVec 8) (d : Bool) : U32 :=
  op ++ reg ++ 0#15 ++ BitVec.ofBool d

/-- The bytes of the `exp` operand: none where D = 1 (R60, R61). -/
def expBytes : Option F64 → List Byte
  | none => []
  | some e => leBytes64 e

/-- The command bytes of an instruction (R57 to R61). -/
def encode : Instr → List Byte
  | .initC a r t e => leBytes32 (headerWord 0x01#8 0x00#8 e.isNone) ++
      leBytes32 a ++ leBytes32 r ++ leBytes32 t ++ expBytes e
  | .initG a h r t e => leBytes32 (headerWord 0x02#8 0x00#8 e.isNone) ++
      leBytes32 a ++ leBytes32 h ++ leBytes32 r ++ leBytes32 t ++ expBytes e
  | .feed data => leBytes32 (headerWord 0x10#8 0x00#8 false) ++
      leBytes32 (BitVec.ofNat 32 data.length) ++ data
  | .getAttack => leBytes32 (headerWord 0x20#8 0x00#8 false)
  | .getRelease => leBytes32 (headerWord 0x20#8 0x01#8 false)
  | .getHold => leBytes32 (headerWord 0x20#8 0x02#8 false)
  | .getThreshold => leBytes32 (headerWord 0x20#8 0x03#8 false)
  | .setAttack v => leBytes32 (headerWord 0x21#8 0x00#8 false) ++ leBytes32 v
  | .setRelease v => leBytes32 (headerWord 0x21#8 0x01#8 false) ++ leBytes32 v
  | .setHold v => leBytes32 (headerWord 0x21#8 0x02#8 false) ++ leBytes32 v
  | .setThreshold v => leBytes32 (headerWord 0x21#8 0x03#8 false) ++ leBytes32 v

/-- The column "total command length in bytes" of R60. -/
def commandLength : Instr → Nat
  | .initC _ _ _ none => 16
  | .initC _ _ _ (some _) => 24
  | .initG _ _ _ _ none => 20
  | .initG _ _ _ _ (some _) => 28
  | .feed data => 8 + data.length
  | .getAttack => 4
  | .getRelease => 4
  | .getHold => 4
  | .getThreshold => 4
  | .setAttack _ => 8
  | .setRelease _ => 8
  | .setHold _ => 8
  | .setThreshold _ => 8

/-- `count` bytes of a number, least significant first. -/
def natBytes : Nat → Nat → List Byte
  | 0, _ => []
  | count + 1, w => BitVec.ofNat 8 w :: natBytes count (w / 256)

/-- The bytes of an instruction given as a number as opcode_table.json numbers its bits (bit 0 is H[0], the least
significant bit of the first byte), `nbits` of them, with zero bytes above up to the longest fixed command (28 bytes). -/
def tableBytes (nbits w : Nat) : List Byte := natBytes (max 28 (nbits / 8)) (w % 2 ^ nbits)

/-- The instruction the decoder reads from a table word. -/
def decodeTableWord (nbits w : Nat) : Option Instr :=
  match decode (tableBytes nbits w) with
  | .ok (i, _) => some i
  | .error _ => none

end Sys2Proof
end

