-- ==== Sys2Proof/Machine/State.lean ====
section
/-! DEFINITION. The state of one block (10_state), the reasons a step can stop, and the power-on state (70 R134). -/

namespace Sys2Proof.Machine

/-- `mode` (R16). -/
inductive Mode where
  | uninit | ready
deriving DecidableEq, Repr

/-- `variant` (R17). -/
inductive Variant where
  | comp | gate
deriving DecidableEq, Repr

/-- The architectural state of one instance: the fourteen fields of the summary table of 10_state, "the whole
architectural state" (R31). The rules write it `st`. -/
structure Regs where
  /-- R16. -/
  mode : Mode
  /-- R17. -/
  variant : Variant
  /-- R18, register 0x00. -/
  attack : U32
  /-- R19, register 0x01. -/
  release : U32
  /-- R20, register 0x02. -/
  hold : U32
  /-- R21, register 0x03. -/
  threshold : U32
  /-- R22. -/
  exp : F64
  /-- R23. -/
  gain : F64
  /-- R24. -/
  envelope : F64
  /-- R25. -/
  floorGain : F64
  /-- R26. -/
  ceilGain : F64
  /-- R27. -/
  frameIndex : U64
  /-- R28. -/
  phaseStart : U64
  /-- R29. -/
  phaseEnd : U64
deriving DecidableEq, Repr

/-- The machine: one instance and its command port. -/
structure State where
  /-- The instance (R16 to R29). -/
  regs : Regs
  /-- DESIGN CHOICE (log 6), safe: the command bytes the host has sent and the block has not read, first byte first
  (R56). -/
  port : List Byte
  /-- DESIGN CHOICE (log 9), safe: the response to the last command, status byte first (R56, R62). -/
  response : List Byte
deriving DecidableEq, Repr

/-- Why the machine stops with a fault. -/
inductive Fault where
  /-- Raised by `fmin`, `fmax`, `flt`, `fgt` and `trunc` of a per-frame step on a NaN operand: `numeric_nan` (R15).
  Safe: the machine stops where the hardware would go on. -/
  | numericNan
deriving DecidableEq, Repr

/-- Why the model has no move. -/
inductive Refusal where
  /-- Raised by an arm of `exec` that has no meaning yet. Safe. -/
  | notModelled (mnemonic : String)
  /-- Raised by FEED when `frameIndex` would pass 2^64 - 1: `frame_counter_overflow` (R107). Safe: the spec has the
  model refuse. -/
  | frameCounterOverflow
  /-- Raised by the fetch when the command bytes end before the command does (R65). Safe: the spec has the model
  refuse. -/
  | transportError
deriving DecidableEq, Repr

/-- The registers at power-on: `mode` is UNINIT (R134). DESIGN CHOICE (log 5), unsafe: the other fields hold no value
in the spec; each is zero here (`variant` COMP), and no rule reads one before a construction writes it. -/
def Regs.powerOn : Regs where
  mode := .uninit
  variant := .comp
  attack := 0
  release := 0
  hold := 0
  threshold := 0
  exp := 0
  gain := 0
  envelope := 0
  floorGain := 0
  ceilGain := 0
  frameIndex := 0
  phaseStart := 0
  phaseEnd := 0

/-- Power-on (R133, R134): nothing sent, nothing answered. -/
def State.reset : State where
  regs := Regs.powerOn
  port := []
  response := []

end Sys2Proof.Machine
end

