-- ==== Sys2Proof/Machine/Float64.lean ====
section
/-! DEFINITION. The numeric primitives of 00_scope R14: IEEE 754 binary64 on bit patterns, round to nearest, ties to even.
DEDUCED (log 1): the format and operations are those of IEEE 754, which R14 names and does not spell out. Every finite
binary64 value is an integer number of units of 2^-1074, so each operation is computed exactly on integers or on a ratio
of integers and rounded once by `roundMag`. -/

namespace Sys2Proof.Machine

/-- The sign bit. -/
def fneg (x : F64) : Bool := x.msb

/-- The 63 bits below the sign. As a number they grow with the magnitude they stand for. -/
def fmag (x : F64) : Nat := x.toNat % 2 ^ 63

/-- The magnitude bits of infinity: exponent field all ones, fraction zero. -/
def infMag : Nat := 0x7FF * 2 ^ 52

/-- A pattern from its sign and its magnitude bits. -/
def fpack (neg : Bool) (mag : Nat) : F64 := BitVec.ofNat 64 (mag + (if neg then 2 ^ 63 else 0))

/-- NaN: exponent field all ones, fraction not zero. -/
def isNaN (x : F64) : Bool := decide (infMag < fmag x)

/-- Positive or negative infinity. -/
def isInf (x : F64) : Bool := decide (fmag x = infMag)

/-- Positive or negative zero. -/
def isZero (x : F64) : Bool := decide (fmag x = 0)

/-- Neither infinity nor NaN. -/
def isFinite (x : F64) : Bool := decide (fmag x < infMag)

/-- How many units of 2^-1074 the finite magnitude bits `m` stand for: the fraction itself where the exponent field is 0
(subnormal), else the fraction with its leading one, shifted by the exponent field less one. -/
def magUnits (m : Nat) : Nat :=
  if m / 2 ^ 52 = 0 then m % 2 ^ 52 else (2 ^ 52 + m % 2 ^ 52) * 2 ^ (m / 2 ^ 52 - 1)

/-- The value of a finite pattern in units of 2^-1074. -/
def funits (x : F64) : Int := if fneg x then -(magUnits (fmag x) : Int) else (magUnits (fmag x) : Int)

/-- The value 1.0 in units of 2^-1074. -/
def oneUnits : Nat := 2 ^ 1074

/-- The integer nearest `num / den`, a tie going to the even one. -/
def roundDiv (num den : Nat) : Nat :=
  let q := num / den
  let r := num % den
  if 2 * r < den ∨ (2 * r = den ∧ q % 2 = 0) then q else q + 1

/-- The exponent field less one that a magnitude of `num / den` units has (0 for the subnormals too): what is dropped
so that 53 bits are left. -/
def roundShift (num den : Nat) : Nat := Nat.log2 (num / den) - 52

/-- `num / den` units of 2^-1074 rounded once to the magnitude bits of the nearest binary64, ties to even, infinity
where that is too large. A significand that rounds up to 2^53 carries into the exponent field. -/
def roundMag (num den : Nat) : Nat :=
  let sh := roundShift num den
  min infMag (sh * 2 ^ 52 + roundDiv num (den * 2 ^ sh))

/-- A quiet NaN with the sign and payload the free value gives (log 2). -/
def nanResult (op : FloatOp) (a b : F64) : F64 :=
  let c := Config.nanChoice op a b
  fpack (c.getLsbD 51) (infMag + 2 ^ 51 + c.toNat % 2 ^ 51)

/-- The constant 0.0. -/
def f0 : F64 := 0x0000000000000000#64

/-- The constant 1.0. -/
def f1 : F64 := 0x3FF0000000000000#64

/-- `toF(i)` (R14). -/
def toF (i : Int) : F64 := fpack (decide (i < 0)) (roundMag (i.natAbs * oneUnits) 1)

/-- The sum of two finite values. An exact sum of 0 is +0.0, but for (-0.0) + (-0.0) = -0.0. -/
def faddFinite (a b : F64) : F64 :=
  let z := funits a + funits b
  if z = 0 then fpack (fneg a && fneg b) 0
  else fpack (decide (z < 0)) (roundMag z.natAbs 1)

/-- `fadd(a, b)` (R14). -/
def fadd (a b : F64) : F64 :=
  if isNaN a || isNaN b then nanResult .add a b
  else if isInf a then if isInf b && (fneg a != fneg b) then nanResult .add a b else a
  else if isInf b then b
  else faddFinite a b

/-- The same magnitude with the other sign. -/
def fflip (x : F64) : F64 := fpack (!fneg x) (fmag x)

/-- `fsub(a, b)` (R14). -/
def fsub (a b : F64) : F64 :=
  if isNaN a || isNaN b then nanResult .sub a b
  else if isInf a then if isInf b && (fneg a == fneg b) then nanResult .sub a b else a
  else if isInf b then fflip b
  else faddFinite a (fflip b)

/-- `fmul(a, b)` (R14). -/
def fmul (a b : F64) : F64 :=
  if isNaN a || isNaN b then nanResult .mul a b
  else if isInf a || isInf b then
    if isZero a || isZero b then nanResult .mul a b else fpack (fneg a != fneg b) infMag
  else fpack (fneg a != fneg b) (roundMag (magUnits (fmag a) * magUnits (fmag b)) oneUnits)

/-- `fdiv(a, b)` (R14). -/
def fdiv (a b : F64) : F64 :=
  if isNaN a || isNaN b then nanResult .div a b
  else if isInf a then if isInf b then nanResult .div a b else fpack (fneg a != fneg b) infMag
  else if isInf b then fpack (fneg a != fneg b) 0
  else if isZero b then
    if isZero a then nanResult .div a b else fpack (fneg a != fneg b) infMag
  else fpack (fneg a != fneg b) (roundMag (magUnits (fmag a) * oneUnits) (magUnits (fmag b)))

/-- The place of a pattern that is no NaN in the order of values; both zeros have the same place. -/
def forder (x : F64) : Int := if fneg x then -(fmag x : Int) else (fmag x : Int)

/-- The IEEE ordered comparison a < b, false when an operand is NaN (R14). -/
def fltOrdered (a b : F64) : Bool := !isNaN a && !isNaN b && decide (forder a < forder b)

/-- The IEEE ordered comparison a > b, false when an operand is NaN (R14). -/
def fgtOrdered (a b : F64) : Bool := fltOrdered b a

/-- The result of an operation on two operands, or the fault `numeric_nan` where one is NaN (R15). -/
def unlessNaN {α : Type} (a b : F64) (r : α) : Except Fault α :=
  if isNaN a || isNaN b then .error .numericNan else .ok r

/-- `flt(a, b)` of a per-frame step (R14, R15). -/
def flt (a b : F64) : Except Fault Bool := unlessNaN a b (fltOrdered a b)

/-- `fgt(a, b)` of a per-frame step (R14, R15). -/
def fgt (a b : F64) : Except Fault Bool := unlessNaN a b (fgtOrdered a b)

/-- `fmin(a, b)` = if flt(b, a) then b else a (R14, R15). -/
def fmin (a b : F64) : Except Fault F64 := unlessNaN a b (if fltOrdered b a then b else a)

/-- `fmax(a, b)` = if flt(a, b) then b else a (R14, R15). -/
def fmax (a b : F64) : Except Fault F64 := unlessNaN a b (if fltOrdered a b then b else a)

/-- `trunc` of a finite value: its magnitude's whole part, with its sign. -/
def truncFinite (x : F64) : Int :=
  let w : Int := ((magUnits (fmag x) / oneUnits : Nat) : Int)
  if fneg x then -w else w

/-- `trunc(x)` (R14, R15): toward zero. An infinity's is a free value (log 3). -/
def trunc (x : F64) : Except Fault Int :=
  if isNaN x then .error .numericNan
  else if isInf x then .ok (Config.truncInfinity x)
  else .ok (truncFinite x)

end Sys2Proof.Machine
end

