-- ==== Sys2Proof/Machine/Ops.lean ====
section
/-! DEFINITION. The named operations: responses and error entry (60_exceptions), the frame counter and the fields an
instance's rules write (41 R72, 70 R135), and the byte buffers (20_memory). -/

namespace Sys2Proof.Machine

/-- The status of a command (R117). -/
inductive Status where
  | ok | invalidBufferLength | invalidParameter | illegalCommand | notInitialised
deriving DecidableEq, Repr

/-- The codes of R117. -/
def statusCode : Status → Byte
  | .ok => 0x00#8
  | .invalidBufferLength => 0x01#8
  | .invalidParameter => 0x02#8
  | .illegalCommand => 0x03#8
  | .notInitialised => 0x04#8

/-- `respond(OK, payload)`: the response is the status byte, then the payload (R56, R62, R118). -/
def respondOk (payload : List Byte) (s : State) : State :=
  { s with response := statusCode .ok :: payload }

/-- ERROR ENTRY, `raise <Status>` (R123): the status byte is the whole report; no field of the instance is written, no
payload is returned, no handler runs. There is no return from it (R125): the next command runs in the state this leaves. -/
def raiseStatus (e : Status) (s : State) : State :=
  { s with response := [statusCode e] }

/-- The check of `mode` that FEED, every GET and every SET make first (R122, R124 step 2); `act` is the rest. -/
def whenReady (s : State) (act : Host.Outcome State Fault Refusal) : Host.Outcome State Fault Refusal :=
  if s.regs.mode = .uninit then .next (raiseStatus .notInitialised s) else act

/-- The check of `variant` that GET.HOLD and SET.HOLD make (R110, R114, R124 step 3). -/
def whenGate (s : State) (act : Host.Outcome State Fault Refusal) : Host.Outcome State Fault Refusal :=
  if s.regs.variant = .comp then .next (raiseStatus .illegalCommand s) else act

/-- CONSTRUCT (R135): every field is written. -/
def construct (v : Variant) (a r h t : U32) (e : F64) : Regs where
  mode := .ready
  variant := v
  attack := a
  release := r
  hold := h
  threshold := t
  exp := e
  gain := f1
  envelope := f0
  floorGain := config.initFloorGain
  ceilGain := config.initCeilGain
  frameIndex := 0
  phaseStart := 0
  phaseEnd := 0

/-- FRAME_ADVANCE (R72). -/
def frameAdvance (st : Regs) : Regs := { st with frameIndex := st.frameIndex + 1 }

/-- `sext_16` of a 16-bit pattern (00_scope section 4). -/
def sext16 (v : Sample) : Int := v.toInt

/-- The 16-bit two's-complement pattern `o mod 2^16` (R99). -/
def pattern16 (o : Int) : Sample := BitVec.ofInt 16 o

/-- `MemRead(a, 2)` of a buffer: the byte at the lower offset holds bits 7 to 0 (R43). `beyond` is what an offset past the
buffer's end would give; R40 has no read reach it. -/
def memRead (beyond : Byte) (buf : List Byte) (a : Nat) : Sample :=
  buf.getD (a + 1) beyond ++ buf.getD a beyond

/-- `MemWrite(a, 2, v)` to a buffer (00_scope section 4, R41). -/
def memWrite (buf : List Byte) (a : Nat) (v : Sample) : List Byte :=
  (buf.set a (v.extractLsb' 0 8)).set (a + 1) (v.extractLsb' 8 8)

end Sys2Proof.Machine
end

