-- ==== Sys2Proof/Machine/Envelope.lean ====
section
/-! DEFINITION. The envelope follower (40_envelope_follower). -/

namespace Sys2Proof.Machine

/-- RECTIFY (R69): the mathematical absolute value, 0 to 32768. -/
def rectify (s : Sample) : Nat := (sext16 s).natAbs

/-- The updated envelope, `exp * |s| + (1 - exp) * envelope`, in the grouping of R70. -/
def nextEnvelope (exp envelope : F64) (s : Sample) : F64 :=
  let t1 := fmul exp (toF (rectify s))
  let t2 := fsub f1 exp
  let t3 := fmul t2 envelope
  fadd t1 t3

/-- ENV_UPDATE (R70, R71). -/
def envUpdate (s : Sample) (st : Regs) : Regs :=
  { st with envelope := nextEnvelope st.exp st.envelope s }

end Sys2Proof.Machine
end

