-- ==== Sys2Proof/Machine/Flags.lean ====
section
/-! DEFINITION. The flags, none of which is stored: the phase of 10_state R30, the GATE hold test of 43 R93, and the phase
selects of 42 R85 and 43 R91. -/

namespace Sys2Proof.Machine

/-- The phase flag's values (R30). -/
inductive Phase where
  | up | down | none
deriving DecidableEq, Repr

/-- `phase(st)` (R30). -/
def phase (st : Regs) : Phase :=
  if st.phaseStart ≠ 0 then .up else if st.phaseEnd ≠ 0 then .down else .none

/-- Elapsed frames of the UP phase, `frameIndex - phaseStart`, a mathematical integer (00_scope section 4; log 12). -/
def elapsedUp (st : Regs) : Int := (st.frameIndex.toNat : Int) - (st.phaseStart.toNat : Int)

/-- Elapsed frames of the DOWN phase, `frameIndex - phaseEnd`, a mathematical integer (00_scope section 4; log 12). -/
def elapsedDown (st : Regs) : Int := (st.frameIndex.toNat : Int) - (st.phaseEnd.toNat : Int)

/-- The GATE hold test `frameIndex - phaseEnd ≥ hold`, on mathematical integers (R30, R93). -/
def holdElapsed (st : Regs) : Bool := decide ((st.hold.toNat : Int) ≤ elapsedDown st)

/-- COMP phase select (R85): `flt(fmul(envelope, gain), toF(threshold))`, the gain being the previous frame's. -/
def compSelect (st : Regs) : Except Fault Bool :=
  flt (fmul st.envelope st.gain) (toF st.threshold.toNat)

/-- GATE phase select (R91): `fgt(envelope, toF(threshold))`. -/
def gateSelect (st : Regs) : Except Fault Bool :=
  fgt st.envelope (toF st.threshold.toNat)

end Sys2Proof.Machine
end

