-- ==== Sys2Proof/Machine/Ramp.lean ====
section
/-! DEFINITION. The gain ramp controller (41_gain_ramp_controller R73 to R81). -/

namespace Sys2Proof.Machine

/-- RAMP_Q (R73): real division of the converted operands. -/
def rampQ (d : Int) (T : U32) : F64 := fdiv (toF d) (toF T.toNat)

/-- RAMP_UP (R75), with the zero timer of R74. -/
def rampUp (st : Regs) (d : Int) (T : U32) : Except Fault F64 :=
  if T = 0 then
    match config.zeroTimerPolicy with
    | .instant => .ok f1
  else fmin (fadd st.floorGain (rampQ d T)) f1

/-- RAMP_DOWN (R76), with the zero timer of R74. The subtraction groups from the left. -/
def rampDown (st : Regs) (d : Int) (T : U32) : Except Fault F64 :=
  if T = 0 then
    match config.zeroTimerPolicy with
    | .instant => .ok f0
  else fmax (fsub (fsub f1 (rampQ d T)) st.ceilGain) f0

/-- ENTER_UP (R77). -/
def enterUp (st : Regs) : Regs :=
  if st.phaseStart = 0 then
    { st with ceilGain := st.gain, phaseStart := st.frameIndex, phaseEnd := 0 }
  else st

/-- ENTER_DOWN (R78). -/
def enterDown (st : Regs) : Regs :=
  if st.phaseEnd = 0 then
    { st with floorGain := st.gain, ceilGain := fsub f1 st.ceilGain, phaseEnd := st.frameIndex, phaseStart := 0 }
  else st

/-- TRACK_UP (R79). -/
def trackUp (st : Regs) : Except Fault Regs := do
  let c ← fmax st.ceilGain st.gain
  return { st with ceilGain := c }

/-- TRACK_DOWN (R80). -/
def trackDown (st : Regs) : Except Fault Regs := do
  let f ← fmin st.floorGain st.gain
  return { st with floorGain := f }

/-- The UP branch of a frame with the ramp's timer `T` (R86, R92): entry, ramp, tracking. -/
def upBranch (T : U32) (st : Regs) : Except Fault Regs := do
  let st := enterUp st
  let g ← rampUp st (elapsedUp st) T
  trackUp { st with gain := g }

/-- APPLY_GAIN (R81): the output sample, truncated toward zero. -/
def applyGain (st : Regs) (s : Sample) : Except Fault Int :=
  trunc (fmul (toF (sext16 s)) st.gain)

end Sys2Proof.Machine
end

