-- ==== Sys2Proof/Machine/Compressor.lean ====
section
/-! DEFINITION. The Compressor's per-frame step (42_compressor_state_machine). -/

namespace Sys2Proof.Machine

/-- COMP UP branch (R86): the timer is `release`. -/
def compUp (st : Regs) : Except Fault Regs := upBranch st.release st

/-- COMP DOWN branch (R87): the timer is `attack`. -/
def compDown (st : Regs) : Except Fault Regs := do
  let st := enterDown st
  let g ← rampDown st (elapsedDown st) st.attack
  trackDown { st with gain := g }

/-- The branch that the phase select names (R86, R87). -/
def compBranch (up : Bool) (st : Regs) : Except Fault Regs :=
  if up then compUp st else compDown st

/-- COMP_STEP (R84): the registers after the frame, and its output sample (R88). -/
def compStep (st : Regs) (s : Sample) : Except Fault (Regs × Int) := do
  let st := envUpdate s (frameAdvance st)
  let up ← compSelect st
  let st ← compBranch up st
  let o ← applyGain st s
  return (st, o)

end Sys2Proof.Machine
end

