-- ==== Sys2Proof/Machine/Gate.lean ====
section
/-! DEFINITION. The Gate's per-frame step (43_gate_state_machine). -/

namespace Sys2Proof.Machine

/-- GATE UP branch (R92): the timer is `attack`. -/
def gateUp (st : Regs) : Except Fault Regs := upBranch st.attack st

/-- The gain of a closing frame (R93): the ramp once the hold has elapsed, until then unchanged. -/
def gateDownGain (st : Regs) : Except Fault F64 :=
  if holdElapsed st then rampDown st (elapsedDown st - st.hold.toNat) st.release else .ok st.gain

/-- GATE DOWN branch (R93) and its tracking, hold frames included (R94). -/
def gateDown (st : Regs) : Except Fault Regs := do
  let st := enterDown st
  let g ← gateDownGain st
  trackDown { st with gain := g }

/-- The branch that the phase select names (R92, R93). -/
def gateBranch (up : Bool) (st : Regs) : Except Fault Regs :=
  if up then gateUp st else gateDown st

/-- GATE_STEP (R90): the registers after the frame, and its output sample (R95). -/
def gateStep (st : Regs) (s : Sample) : Except Fault (Regs × Int) := do
  let st := envUpdate s (frameAdvance st)
  let up ← gateSelect st
  let st ← gateBranch up st
  let o ← applyGain st s
  return (st, o)

end Sys2Proof.Machine
end

