-- ==== Sys2Proof/Machine/Codec.lean ====
section
/-! DEFINITION. The PCM sample codec and the frame loop (44_pcm_sample_codec). -/

namespace Sys2Proof.Machine

/-- CHECK_LENGTH (R97): whether a length passes. -/
def checkLength (n : Nat) : Bool := n % 2 == 0

/-- DECODE_FRAME of a frame's two bytes, the one at the lower offset first (R54, R98). -/
def decodeFrame (b0 b1 : Byte) : Sample := b1 ++ b0

/-- ENCODE_FRAME of an output sample (R54, R99): its two bytes, the one at the lower offset first. -/
def encodeFrame (o : Int) : List Byte :=
  [(pattern16 o).extractLsb' 0 8, (pattern16 o).extractLsb' 8 8]

/-- The per-frame step that `variant` selects (R17, R100). -/
def frameStep (st : Regs) (s : Sample) : Except Fault (Regs × Int) :=
  match st.variant with
  | .comp => compStep st s
  | .gate => gateStep st s

/-- FRAME_LOOP (R49, R100): "strictly in consecutive 2-byte pairs", first frame first; the registers after the last frame,
and OUT. DEDUCED (log 11): the cursor k is the number of pairs taken so far. A byte without a partner is left
unprocessed; CHECK_LENGTH lets no buffer with one come here. -/
def frameLoop (st : Regs) : List Byte → Except Fault (Regs × List Byte)
  | b0 :: b1 :: rest => do
    let (st, o) ← frameStep st (decodeFrame b0 b1)
    let (st, out) ← frameLoop st rest
    return (st, encodeFrame o ++ out)
  | _ => .ok (st, [])

/-- FRAME_LOOP as R100 writes it: `m` frames from cursor `k` on, frame k read with `MemRead(2k, 2)` from IN and written
with `MemWrite(2k, 2, v)` to OUT. `beyond` stands for what lies past IN (R40). -/
def cursorLoop (beyond : Byte) (input : List Byte) (st : Regs) (out : List Byte) (k : Nat) :
    Nat → Except Fault (Regs × List Byte)
  | 0 => .ok (st, out)
  | m + 1 => do
    let (st, o) ← frameStep st (memRead beyond input (2 * k))
    cursorLoop beyond input st (memWrite out (2 * k) (pattern16 o)) (k + 1) m

/-- The same with OUT in the storage of IN (R42). -/
def inPlaceLoop (beyond : Byte) (st : Regs) (buf : List Byte) (k : Nat) :
    Nat → Except Fault (Regs × List Byte)
  | 0 => .ok (st, buf)
  | m + 1 => do
    let (st, o) ← frameStep st (memRead beyond buf (2 * k))
    inPlaceLoop beyond st (memWrite buf (2 * k) (pattern16 o)) (k + 1) m

end Sys2Proof.Machine
end

