-- ==== Sys2Proof/Machine/Operands.lean ====
section
/-! DEFINITION. The operands of the host commands: the parameter registers by number, and `exp` (30_encoding R57 to R61,
45_host_commands R105). -/

namespace Sys2Proof.Machine

/-- A parameter register's value (R18 to R21, R59). -/
def readParam (r : ParamReg) (st : Regs) : U32 :=
  match r with
  | .attack => st.attack
  | .release => st.release
  | .hold => st.hold
  | .threshold => st.threshold

/-- The registers with one parameter register written and nothing else (R112 to R115). -/
def writeParam (r : ParamReg) (v : U32) (st : Regs) : Regs :=
  match r with
  | .attack => { st with attack := v }
  | .release => { st with release := v }
  | .hold => { st with hold := v }
  | .threshold => { st with threshold := v }

/-- `e = (D == 1) ? EXP_DEFAULT : exp` (R103, R104). -/
def expOperand : Option F64 → F64
  | none => config.expDefault
  | some e => e

/-- EXP_VALID (R105): true exactly for 0 < e ≤ 1. DEDUCED (log 4): a NaN is invalid here, as R105 says of this check by
name; the fault of R15 is for the per-frame steps. -/
def expValid (e : F64) : Bool := fgtOrdered e f0 && !fgtOrdered e f1

/-- The u32 payload of a GET (R62). -/
def paramPayload (r : ParamReg) (st : Regs) : List Byte := leBytes32 (readParam r st)

end Sys2Proof.Machine
end

