-- ==== Sys2Proof/Machine/Commands.lean ====
section
/-! DEFINITION. The meanings of the eleven host commands (45_host_commands). Each is one indivisible step (R102) and makes
its checks in the order of 60_exceptions R124, before its first write. -/

namespace Sys2Proof.Machine

/-- A construction (R103, R104): the check of `exp`, then CONSTRUCT and an empty payload. -/
def constructWith (v : Variant) (a r h t : U32) (exp : Option F64) (s : State) :
    Host.Outcome State Fault Refusal :=
  if expValid (expOperand exp) then
    .next (respondOk [] { s with regs := construct v a r h t (expOperand exp) })
  else .next (raiseStatus .invalidParameter s)

/-- GET of a register that both variants have (R108, R109, R111). -/
def getParam (r : ParamReg) (s : State) : Host.Outcome State Fault Refusal :=
  whenReady s (.next (respondOk (paramPayload r s.regs) s))

/-- SET of a register that both variants have (R112, R113, R115). -/
def setParam (r : ParamReg) (v : U32) (s : State) : Host.Outcome State Fault Refusal :=
  whenReady s (.next (respondOk [] { s with regs := writeParam r v s.regs }))

/-- INIT.C (R103): `hold` is 0 in COMP. -/
def execInitC (attack release threshold : U32) (exp : Option F64) (s : State) :
    Host.Outcome State Fault Refusal :=
  constructWith .comp attack release 0 threshold exp s

/-- INIT.G (R104). -/
def execInitG (attack hold release threshold : U32) (exp : Option F64) (s : State) :
    Host.Outcome State Fault Refusal :=
  constructWith .gate attack release hold threshold exp s

/-- FEED (R106): mode, length, the counter bound of R107, then the frame loop and OUT as the payload. -/
def execFeed (data : List Byte) (s : State) : Host.Outcome State Fault Refusal :=
  whenReady s <|
    if checkLength data.length = false then .next (raiseStatus .invalidBufferLength s)
    else if 2 ^ 64 - 1 < s.regs.frameIndex.toNat + data.length / 2 then .refused .frameCounterOverflow
    else match frameLoop s.regs data with
      | .ok (st, out) => .next (respondOk out { s with regs := st })
      | .error f => .fault f

/-- GET.ATTACK (R108). -/
def execGetAttack (s : State) : Host.Outcome State Fault Refusal := getParam .attack s

/-- GET.RELEASE (R109). -/
def execGetRelease (s : State) : Host.Outcome State Fault Refusal := getParam .release s

/-- GET.HOLD (R110), GATE only. -/
def execGetHold (s : State) : Host.Outcome State Fault Refusal :=
  whenReady s (whenGate s (.next (respondOk (paramPayload .hold s.regs) s)))

/-- GET.THRESHOLD (R111). -/
def execGetThreshold (s : State) : Host.Outcome State Fault Refusal := getParam .threshold s

/-- SET.ATTACK (R112). -/
def execSetAttack (value : U32) (s : State) : Host.Outcome State Fault Refusal := setParam .attack value s

/-- SET.RELEASE (R113). -/
def execSetRelease (value : U32) (s : State) : Host.Outcome State Fault Refusal := setParam .release value s

/-- SET.HOLD (R114), GATE only. -/
def execSetHold (value : U32) (s : State) : Host.Outcome State Fault Refusal :=
  whenReady s (whenGate s (.next (respondOk [] { s with regs := writeParam .hold value s.regs })))

/-- SET.THRESHOLD (R115). -/
def execSetThreshold (value : U32) (s : State) : Host.Outcome State Fault Refusal := setParam .threshold value s

end Sys2Proof.Machine
end

