-- ==== Sys2Proof/Machine/Dispatch.lean ====
section
/-! DEFINITION. The meaning of each instruction: one arm per row of spec/opcode_table.json. -/

namespace Sys2Proof.Machine

def exec (i : Instr) (s : State) : Host.Outcome State Fault Refusal :=
  match i with
  | .initC attack release threshold exp => Sys2Proof.Machine.execInitC attack release threshold exp s
  | .initG attack hold release threshold exp => Sys2Proof.Machine.execInitG attack hold release threshold exp s
  | .feed data => Sys2Proof.Machine.execFeed data s
  | .getAttack => Sys2Proof.Machine.execGetAttack s
  | .getRelease => Sys2Proof.Machine.execGetRelease s
  | .getHold => Sys2Proof.Machine.execGetHold s
  | .getThreshold => Sys2Proof.Machine.execGetThreshold s
  | .setAttack value => Sys2Proof.Machine.execSetAttack value s
  | .setRelease value => Sys2Proof.Machine.execSetRelease value s
  | .setHold value => Sys2Proof.Machine.execSetHold value s
  | .setThreshold value => Sys2Proof.Machine.execSetThreshold value s

end Sys2Proof.Machine
end

