-- ==== Sys2Proof/Machine/Fetch.lean ====
section
/-! DEFINITION. Taking the next command off the port (30_encoding R56, R63 to R65). The block has no program counter and
fetches no instructions (10_state R32): what a step runs is the command at the front of the host's bytes. -/

namespace Sys2Proof.Machine

/-- What a step finds at the port. -/
inductive Fetched where
  /-- No byte: the block is idle (R132; log 7). -/
  | idle
  /-- A whole command, and the state with its bytes read. -/
  | command (i : Instr) (s : State)
  /-- An illegal header, and the state with its four bytes read and no operand byte (R64). -/
  | illegal (s : State)
  /-- Bytes that end before the command does (R65). -/
  | cutOff
deriving DecidableEq, Repr

/-- The front of the port, decoded. -/
def fetch (s : State) : Fetched :=
  if s.port = [] then .idle
  else match decode s.port with
    | .ok (i, rest) => .command i { s with port := rest }
    | .error (.illegalHeader _ rest) => .illegal { s with port := rest }
    | .error .incomplete => .cutOff

/-- The state with an instruction of opcode_table.json, given as a number, at the port. -/
def placeCommand (s : State) (nbits w : Nat) : State := { s with port := tableBytes nbits w }

end Sys2Proof.Machine
end

