-- ==== Sys2Proof/Machine/Step.lean ====
section
/-! DEFINITION. One step: the command at the port runs to completion (45_host_commands R102). -/

namespace Sys2Proof.Machine

/-- One step of the block. An illegal header ends with ILLEGAL_COMMAND (R64, R120); with no command pending the block is
idle and nothing changes (R132; log 7). -/
def step (s : State) : Host.Outcome State Fault Refusal :=
  match fetch s with
  | .idle => .next s
  | .command i s' => exec i s'
  | .illegal s' => .next (raiseStatus .illegalCommand s')
  | .cutOff => .refused .transportError

/-- The state with a table word where the next step takes its command from (log 6). -/
def State.withFetchWord (s : State) (nbits w : Nat) : State := placeCommand s nbits w

end Sys2Proof.Machine
end

