-- ==== Sys2Proof/Safety.lean ====
section
/-! DEFINITION. The terms the claims use: the legal states of an instance (10_state R34 to R38), the exact value of a
binary64 pattern, and what "correctly rounded" means (00_scope R14). -/

namespace Sys2Proof.Safety

open Sys2Proof.Machine

/-- A binary64 pattern of a value in [0, 1] that is not -0.0: the patterns from that of +0.0 to that of 1.0 (R34). -/
abbrev InUnit (x : F64) : Prop := x.toNat ≤ f1.toNat

/-- A finite cap that `envelope` keeps below under any rounding: 2^69, above which adding 32768 rounds back. The spec
proves no bound (R38); this one is the invariant's own. -/
def envelopeCap : F64 := 0x4440000000000000#64

/-- What a constructed instance satisfies (R34 to R38). -/
structure Legal (st : Regs) : Prop where
  /-- R34. -/
  gain : InUnit st.gain
  /-- R35. -/
  floorGain : InUnit st.floorGain
  /-- R35. -/
  ceilGain : InUnit st.ceilGain
  /-- R22: 0 < exp ≤ 1. -/
  exp : 0 < st.exp.toNat ∧ InUnit st.exp
  /-- R38: not negative, and no infinity or NaN (R15). -/
  envelope : st.envelope.toNat ≤ envelopeCap.toNat
  /-- R20: in COMP the register holds 0. -/
  hold : st.variant = .comp → st.hold = 0
  /-- R36, at construction. -/
  noFrame : st.frameIndex = 0 → st.phaseStart = 0 ∧ st.phaseEnd = 0
  /-- R36, from the first frame on: exactly one is not 0. -/
  onePhase : st.frameIndex ≠ 0 → ¬(st.phaseStart = 0 ↔ st.phaseEnd = 0)
  /-- R37. -/
  startPast : st.phaseStart.toNat ≤ st.frameIndex.toNat
  /-- R37. -/
  endPast : st.phaseEnd.toNat ≤ st.frameIndex.toNat

/-- The invariant of the machine: a READY instance is legal. -/
def Invariant (s : State) : Prop := s.regs.mode = .ready → Legal s.regs

/-- The exact value of a finite binary64 pattern. -/
def value (x : F64) : ℚ := (funits x : ℚ) / 2 ^ 1074

/-- The least magnitude that rounds to infinity: halfway between the greatest finite value and 2^1024 (IEEE 754; log 1,
DEDUCED). -/
def overflowBound : ℚ := 2 ^ 1024 - 2 ^ 970

/-- `r` is a finite value nearest `z`; where another is as near, the one whose pattern is even. -/
def NearestEven (z : ℚ) (r : F64) : Prop :=
  isFinite r = true ∧ ∀ c : F64, isFinite c = true →
    |value r - z| ≤ |value c - z| ∧
      (|value r - z| = |value c - z| → value c = value r ∨ fmag r % 2 = 0)

/-- `r` is `z` correctly rounded: round to nearest, ties to even (R14), with infinity beyond the format (IEEE 754; log 1,
DEDUCED). The sign of a zero is not part of it. -/
def Rounded (z : ℚ) (r : F64) : Prop :=
  (|z| < overflowBound → NearestEven z r) ∧
  (overflowBound ≤ |z| → isInf r = true ∧ (fneg r = true ↔ z < 0))

/-- The legal header words of 30_encoding R63, written out: INIT.C and INIT.G with D = 0 and 1, FEED, GET and SET of the
four registers. -/
def legalHeaders : List U32 :=
  [0x01000000#32, 0x01000001#32, 0x02000000#32, 0x02000001#32, 0x10000000#32,
   0x20000000#32, 0x20010000#32, 0x20020000#32, 0x20030000#32,
   0x21000000#32, 0x21010000#32, 0x21020000#32, 0x21030000#32]

/-- The commands that run CONSTRUCT. -/
def constructs : Instr → Bool
  | .initC _ _ _ _ => true
  | .initG _ _ _ _ _ => true
  | .feed _ => false
  | .getAttack => false
  | .getRelease => false
  | .getHold => false
  | .getThreshold => false
  | .setAttack _ => false
  | .setRelease _ => false
  | .setHold _ => false
  | .setThreshold _ => false

end Sys2Proof.Safety
end

