-- ==== Sys2Proof/Certificates/Slice0/Obligations.lean ====
section
/-! DEFINITION. The statements for the provers. Each docstring names the rule of spec/ it formalises or rests on. -/

open Sys2Proof Sys2Proof.Machine Sys2Proof.Safety

/-! Power-on and construction. -/

/-- At power-on `mode` is UNINIT (70 R134), and the invariant holds. The empty port is the model's choice (log 6). -/
def Obligations.PowerOnSatisfiesTheInvariant : Prop :=
  State.reset.regs.mode = .uninit ∧ State.reset.port = [] ∧ Invariant State.reset

/-- 70 R135: a construction whose `exp` (or `EXP_DEFAULT`) is in (0, 1] writes every field and answers OK, and an instance
with those counters is in the phase NONE. -/
def Obligations.InitConstructsTheInstance : Prop :=
  (∀ st : Regs, st.phaseStart = 0 → st.phaseEnd = 0 → phase st = .none) ∧
  ∀ (a h r t : U32) (exp : Option F64) (s : State),
    isFinite (exp.getD 0x3FECCCCCCCCCCCCD#64) = true →
    0 < value (exp.getD 0x3FECCCCCCCCCCCCD#64) → value (exp.getD 0x3FECCCCCCCCCCCCD#64) ≤ 1 →
    exec (.initC a r t exp) s = .next { s with
      regs := { mode := .ready, variant := .comp, attack := a, release := r, hold := 0, threshold := t,
                exp := exp.getD 0x3FECCCCCCCCCCCCD#64, gain := 0x3FF0000000000000#64, envelope := 0,
                floorGain := 0, ceilGain := 0, frameIndex := 0, phaseStart := 0, phaseEnd := 0 }
      response := [0x00#8] } ∧
    exec (.initG a h r t exp) s = .next { s with
      regs := { mode := .ready, variant := .gate, attack := a, release := r, hold := h, threshold := t,
                exp := exp.getD 0x3FECCCCCCCCCCCCD#64, gain := 0x3FF0000000000000#64, envelope := 0,
                floorGain := 0, ceilGain := 0, frameIndex := 0, phaseStart := 0, phaseEnd := 0 }
      response := [0x00#8] }

/-- 45 R105: EXP_VALID is `fgt(e, 0.0) and not fgt(e, 1.0)`, true exactly for 0 < e ≤ 1; the constructions that call it
raise INVALID_PARAMETER when it is false. -/
def Obligations.ExpValidExactlyInZeroToOne : Prop :=
  ∀ e : F64, (expValid e = true ↔ (isFinite e = true ∧ 0 < value e ∧ value e ≤ 1)) ∧
    (expValid e = true ↔ (fgtOrdered e f0 = true ∧ fgtOrdered e f1 = false)) ∧
    ∀ (a h r t : U32) (s : State), expValid e = false →
      exec (.initC a r t (some e)) s = .next { s with response := [0x02#8] } ∧
      exec (.initG a h r t (some e)) s = .next { s with response := [0x02#8] }

/-- 60 R121: INIT.C and INIT.G with an `exp` outside (0, 1] end with INVALID_PARAMETER and keep the instance; with `exp`
omitted every u32 value of the other operands is accepted. -/
def Obligations.InitRejectsABadExp : Prop :=
  ∀ (a h r t : U32) (s : State),
    (∀ e : F64, ¬(isFinite e = true ∧ 0 < value e ∧ value e ≤ 1) →
      exec (.initC a r t (some e)) s = .next { s with response := [0x02#8] } ∧
      exec (.initG a h r t (some e)) s = .next { s with response := [0x02#8] }) ∧
    (∃ u, exec (.initC a r t none) s = .next u ∧ u.response = [0x00#8] ∧ u.regs.attack = a ∧ u.regs.release = r ∧
      u.regs.threshold = t) ∧
    (∃ u, exec (.initG a h r t none) s = .next u ∧ u.response = [0x00#8] ∧ u.regs.attack = a ∧ u.regs.hold = h ∧
      u.regs.release = r ∧ u.regs.threshold = t)

/-- 70 R138: a construction that succeeds, of either variant and on an instance of either, leaves what CONSTRUCT gives with
its own operands (R135) and keeps nothing of the old instance; one that fails keeps the old instance whole. -/
def Obligations.InitKeepsNothingOrEverything : Prop :=
  (∀ (i : Instr) (s t : State), constructs i = true → exec i s = .next t →
    (t.response = [0x00#8] → ∀ s' : State, s'.port = s.port → exec i s' = .next t) ∧
    (t.response ≠ [0x00#8] → t.regs = s.regs ∧ t.response = [0x02#8])) ∧
  (∀ (a h r th : U32) (exp : Option F64) (s t : State),
    (exec (.initC a r th exp) s = .next t → t.response = [0x00#8] →
      t.regs = construct .comp a r 0 th (exp.getD 0x3FECCCCCCCCCCCCD#64)) ∧
    (exec (.initG a h r th exp) s = .next t → t.response = [0x00#8] →
      t.regs = construct .gate a r h th (exp.getD 0x3FECCCCCCCCCCCCD#64)))

/-! Encoding. -/

/-- 30 R57 to R61: the bytes of a well-formed command decode to that command, whatever follows them. -/
def Obligations.DecodeOfEncodeIsTheCommand : Prop :=
  ∀ (i : Instr) (rest : List Byte), wellFormed i = true → decode (encode i ++ rest) = .ok (i, rest)

/-- 30 R57 to R61: bytes that decode to a command begin with that command's encoding and no other. -/
def Obligations.DecodedBytesAreTheEncoding : Prop :=
  ∀ (bs rest : List Byte) (i : Instr), decode bs = .ok (i, rest) → wellFormed i = true ∧ encode i ++ rest = bs

/-- Words written out from 30 R57 to R60 and 45 R108, R113 decode to the commands they stand for. -/
def Obligations.WrittenCommandsDecode : Prop :=
  decode [0x01, 0x00, 0x00, 0x01, 0x04, 0x00, 0x00, 0x00, 0x08, 0x00, 0x00, 0x00, 0xE8, 0x03, 0x00, 0x00] =
    .ok (.initC 4 8 1000 none, []) ∧
  decode [0x00, 0x00, 0x00, 0x10, 0x04, 0x00, 0x00, 0x00, 0xD0, 0x07, 0xD0, 0x07] =
    .ok (.feed [0xD0, 0x07, 0xD0, 0x07], []) ∧
  decode [0x00, 0x00, 0x00, 0x20] = .ok (.getAttack, []) ∧
  decode [0x00, 0x00, 0x01, 0x21, 0x04, 0x00, 0x00, 0x00] = .ok (.setRelease 4, [])

/-- 30 R63: what each legal header decodes to; any header not listed is illegal. -/
def Obligations.HeadersDecodeAsListed : Prop :=
  (∀ h : U32, h ∉ legalHeaders → decodeHeader h = none) ∧
  decodeHeader 0x01000000#32 = some (.initC false) ∧ decodeHeader 0x01000001#32 = some (.initC true) ∧
  decodeHeader 0x02000000#32 = some (.initG false) ∧ decodeHeader 0x02000001#32 = some (.initG true) ∧
  decodeHeader 0x10000000#32 = some .feed ∧
  decodeHeader 0x20000000#32 = some (.get .attack) ∧ decodeHeader 0x20010000#32 = some (.get .release) ∧
  decodeHeader 0x20020000#32 = some (.get .hold) ∧ decodeHeader 0x20030000#32 = some (.get .threshold) ∧
  decodeHeader 0x21000000#32 = some (.set .attack) ∧ decodeHeader 0x21010000#32 = some (.set .release) ∧
  decodeHeader 0x21020000#32 = some (.set .hold) ∧ decodeHeader 0x21030000#32 = some (.set .threshold)

/-! The step. -/

/-- When the bytes at the port decode to a command, the step is that command's `exec` (45_host_commands: a command is decoded,
then runs as one indivisible step) on the state with the command's bytes read. THE MODEL'S CHOICE, not the spec's words: that
the command comes off the front of a list of waiting bytes (log 6, DESIGN CHOICE), and that all its bytes are off that list
whatever status it ends with and whatever bytes follow (log 10, DEDUCED, unsafe). -/
def Obligations.StepRunsTheDecodedCommand : Prop :=
  ∀ (s : State) (i : Instr) (rest : List Byte), decode s.port = .ok (i, rest) →
    step s = exec i { s with port := rest }

/-- 30 R64: an illegal header ends with ILLEGAL_COMMAND (0x03), reads no operand byte, and changes no state. That what is not
read stands at the port is how the model's port (log 6) says "reads no operand bytes". -/
def Obligations.IllegalHeaderChangesNoState : Prop :=
  ∀ (s : State) (h : U32) (rest : List Byte), h ∉ legalHeaders → s.port = leBytes32 h ++ rest →
    step s = .next { s with port := rest, response := [0x03#8] }

/-- The model's choice (log 7), from 60 R132: with nothing at the port the block is idle and a step changes nothing. -/
def Obligations.IdleBlockChangesNothing : Prop :=
  ∀ s : State, s.port = [] → step s = .next s

/-- Where the host's bytes end before the command does, the model refuses: its form (log 8) of what 30_encoding section 3 calls
a transport error outside the model. -/
def Obligations.CutOffCommandIsRefused : Prop :=
  ∀ (s : State) (i : Instr) (n : Nat), wellFormed i = true → 0 < n → n < (encode i).length →
    s.port = (encode i).take n → step s = .refused .transportError

/-! Errors. -/

/-- 60 R122: before construction FEED, every GET and every SET end with NOT_INITIALISED (0x04). -/
def Obligations.NothingRunsBeforeConstruction : Prop :=
  ∀ (i : Instr) (s : State), constructs i = false → s.regs.mode = .uninit →
    exec i s = .next { s with response := [0x04#8] }

/-- 45 R110, R114: GET.HOLD and SET.HOLD on a COMP instance end with ILLEGAL_COMMAND (0x03). -/
def Obligations.HoldIsIllegalOnACompressor : Prop :=
  ∀ (v : U32) (s : State), s.regs.mode = .ready → s.regs.variant = .comp →
    exec .getHold s = .next { s with response := [0x03#8] } ∧
    exec (.setHold v) s = .next { s with response := [0x03#8] }

/-- 60 R119: a FEED of odd length ends with INVALID_BUFFER_LENGTH (0x01), after the mode check and before any frame. -/
def Obligations.OddFeedIsRejectedWhole : Prop :=
  ∀ (data : List Byte) (s : State), data.length % 2 = 1 →
    (s.regs.mode = .ready → exec (.feed data) s = .next { s with response := [0x01#8] }) ∧
    (s.regs.mode = .uninit → exec (.feed data) s = .next { s with response := [0x04#8] })

/-- 45 R107: a FEED that would carry `frameIndex` past 2^64 - 1 is refused. -/
def Obligations.CounterOverflowIsRefused : Prop :=
  ∀ (data : List Byte) (s : State), s.regs.mode = .ready → data.length % 2 = 0 →
    2 ^ 64 - 1 < s.regs.frameIndex.toNat + data.length / 2 → exec (.feed data) s = .refused .frameCounterOverflow

/-- 60 R123: a step that runs a command either answers OK or writes no field of the instance and answers one of the four
error codes and no payload. -/
def Obligations.ErrorsLeaveNoTrace : Prop :=
  ∀ s t : State, s.port ≠ [] → step s = .next t →
    (∃ payload, t.response = 0x00#8 :: payload) ∨
    (t.regs = s.regs ∧ t.response ∈ [[0x01#8], [0x02#8], [0x03#8], [0x04#8]])

/-! Parameter access. -/

/-- 45 R108 to R111: each GET's header; it answers OK and its register as a little-endian u32, and changes nothing else. -/
def Obligations.GetAnswersItsRegister : Prop :=
  encode .getAttack = leBytes32 0x20000000#32 ∧ encode .getRelease = leBytes32 0x20010000#32 ∧
  encode .getHold = leBytes32 0x20020000#32 ∧ encode .getThreshold = leBytes32 0x20030000#32 ∧
  ∀ s : State,
    (s.regs.mode = .ready →
      exec .getAttack s = .next { s with response := 0x00#8 :: leBytes32 s.regs.attack } ∧
      exec .getRelease s = .next { s with response := 0x00#8 :: leBytes32 s.regs.release } ∧
      exec .getThreshold s = .next { s with response := 0x00#8 :: leBytes32 s.regs.threshold } ∧
      (s.regs.variant = .gate →
        exec .getHold s = .next { s with response := 0x00#8 :: leBytes32 s.regs.hold }) ∧
      (s.regs.variant = .comp → exec .getHold s = .next { s with response := [0x03#8] })) ∧
    (s.regs.mode = .uninit →
      exec .getAttack s = .next { s with response := [0x04#8] } ∧
      exec .getRelease s = .next { s with response := [0x04#8] } ∧
      exec .getThreshold s = .next { s with response := [0x04#8] } ∧
      exec .getHold s = .next { s with response := [0x04#8] })

/-- 45 R112 to R115: each SET's header and operand; it writes its register, answers OK with no payload, and changes nothing
else. -/
def Obligations.SetWritesOnlyItsRegister : Prop :=
  ∀ (v : U32) (s : State),
    encode (.setAttack v) = leBytes32 0x21000000#32 ++ leBytes32 v ∧
    encode (.setRelease v) = leBytes32 0x21010000#32 ++ leBytes32 v ∧
    encode (.setHold v) = leBytes32 0x21020000#32 ++ leBytes32 v ∧
    encode (.setThreshold v) = leBytes32 0x21030000#32 ++ leBytes32 v ∧
    (s.regs.mode = .ready →
      exec (.setAttack v) s = .next { s with regs := { s.regs with attack := v }, response := [0x00#8] } ∧
      exec (.setRelease v) s = .next { s with regs := { s.regs with release := v }, response := [0x00#8] } ∧
      exec (.setThreshold v) s = .next { s with regs := { s.regs with threshold := v }, response := [0x00#8] } ∧
      (s.regs.variant = .gate →
        exec (.setHold v) s = .next { s with regs := { s.regs with hold := v }, response := [0x00#8] }) ∧
      (s.regs.variant = .comp → exec (.setHold v) s = .next { s with response := [0x03#8] })) ∧
    (s.regs.mode = .uninit →
      exec (.setAttack v) s = .next { s with response := [0x04#8] } ∧
      exec (.setRelease v) s = .next { s with response := [0x04#8] } ∧
      exec (.setThreshold v) s = .next { s with response := [0x04#8] } ∧
      exec (.setHold v) s = .next { s with response := [0x04#8] })

/-- The columns "written by" of 10_state section 1: among the commands that construct nothing, no command writes `mode`,
`variant` or `exp`, a parameter is written by its SET only, and the datapath registers and counters by FEED only. The
port is never written. -/
def Obligations.EachFieldHasItsWriters : Prop :=
  ∀ (i : Instr) (s t : State), constructs i = false → exec i s = .next t →
    t.port = s.port ∧ t.regs.mode = s.regs.mode ∧ t.regs.variant = s.regs.variant ∧ t.regs.exp = s.regs.exp ∧
    ((∀ v, i ≠ .setAttack v) → t.regs.attack = s.regs.attack) ∧
    ((∀ v, i ≠ .setRelease v) → t.regs.release = s.regs.release) ∧
    ((∀ v, i ≠ .setHold v) → t.regs.hold = s.regs.hold) ∧
    ((∀ v, i ≠ .setThreshold v) → t.regs.threshold = s.regs.threshold) ∧
    ((∀ d, i ≠ .feed d) →
      t.regs.gain = s.regs.gain ∧ t.regs.envelope = s.regs.envelope ∧ t.regs.floorGain = s.regs.floorGain ∧
      t.regs.ceilGain = s.regs.ceilGain ∧ t.regs.frameIndex = s.regs.frameIndex ∧
      t.regs.phaseStart = s.regs.phaseStart ∧ t.regs.phaseEnd = s.regs.phaseEnd)

/-! FEED. -/

/-- 45 R106: on a legal READY instance a FEED of even length within the counter's range runs every frame of its buffer and
answers OK and OUT, of the same length; nothing but the registers and the response is written. -/
def Obligations.FeedRunsEveryFrame : Prop :=
  ∀ (data : List Byte) (s : State), s.regs.mode = .ready → Legal s.regs → data.length % 2 = 0 →
    s.regs.frameIndex.toNat + data.length / 2 ≤ 2 ^ 64 - 1 →
    ∃ st out, frameLoop s.regs data = .ok (st, out) ∧ out.length = data.length ∧
      st.frameIndex.toNat = s.regs.frameIndex.toNat + data.length / 2 ∧
      exec (.feed data) s = .next { s with regs := st, response := 0x00#8 :: out }

/-- 60 R128, 44 R100: a FEED that answers OK advances `frameIndex` by one per frame and returns as many bytes as it was
given. -/
def Obligations.FrameIndexCountsFrames : Prop :=
  ∀ (data payload : List Byte) (s t : State), exec (.feed data) s = .next t → t.response = 0x00#8 :: payload →
    t.regs.frameIndex.toNat = s.regs.frameIndex.toNat + data.length / 2 ∧ payload.length = data.length

/-- 44 R100: the pair recursion of the model is the loop R100 writes, with cursor k, `MemRead(2k, 2)` from IN and
`MemWrite(2k, 2, v)` to an OUT of any contents; and it never depends on what lies past IN (20 R40). -/
def Obligations.FrameLoopIsTheCursorLoop : Prop :=
  ∀ (beyond : Byte) (st : Regs) (input out : List Byte), input.length % 2 = 0 → out.length = input.length →
    cursorLoop beyond input st out 0 (input.length / 2) = frameLoop st input

/-- 20 R42: with OUT in the storage of IN the result is the same as with separate buffers. -/
def Obligations.InPlaceFeedEqualsSeparateBuffers : Prop :=
  ∀ (beyond : Byte) (st : Regs) (input out : List Byte), input.length % 2 = 0 → out.length = input.length →
    inPlaceLoop beyond st input 0 (input.length / 2) = cursorLoop beyond input st out 0 (input.length / 2)

/-- 45 R106: two FEEDs give the same final state and the same output bytes as one FEED of the concatenated frames. -/
def Obligations.TwoFeedsAreOneFeed : Prop :=
  ∀ (a b : List Byte) (s t u : State), a.length % 2 = 0 → b.length % 2 = 0 → s.regs.mode = .ready →
    exec (.feed a) s = .next t → exec (.feed b) t = .next u →
    exec (.feed (a ++ b)) s = .next { u with response := 0x00#8 :: (t.response.tail ++ u.response.tail) }

/-- 20 R49: the output of the frames of a prefix does not depend on the frames after it. -/
def Obligations.OutputIgnoresLaterFrames : Prop :=
  ∀ (st st1 st2 : Regs) (a b c out1 out2 : List Byte), a.length % 2 = 0 →
    frameLoop st (a ++ b) = .ok (st1, out1) → frameLoop st (a ++ c) = .ok (st2, out2) →
    out1.take a.length = out2.take a.length

/-- 95 V-L1.1 under 41 R81: a legal instance of either variant, fed m silent frames, returns m silent frames. -/
def Obligations.SilenceGivesSilence : Prop :=
  ∀ (m : Nat) (s : State), s.regs.mode = .ready → Legal s.regs → s.regs.frameIndex.toNat + m ≤ 2 ^ 64 - 1 →
    ∃ st, exec (.feed (List.replicate (2 * m) 0x00#8)) s =
      .next { s with regs := st, response := 0x00#8 :: List.replicate (2 * m) 0x00#8 }

/-! The codec. -/

/-- 44 R101: encoding and decoding a frame are inverse on the i16 values and on the pairs of bytes. -/
def Obligations.CodecRoundTrips : Prop :=
  (∀ o : Int, -32768 ≤ o → o ≤ 32767 →
    ∃ b0 b1, encodeFrame o = [b0, b1] ∧ sext16 (decodeFrame b0 b1) = o) ∧
  (∀ b0 b1 : Byte, encodeFrame (sext16 (decodeFrame b0 b1)) = [b0, b1])

/-- 41 R81, 44 R101: with gain 1.0 the output sample is the input sample. -/
def Obligations.UnitGainPassesTheSample : Prop :=
  ∀ (st : Regs) (s : Sample), st.gain = 0x3FF0000000000000#64 → applyGain st s = .ok (sext16 s)

/-- 41 R81: with a gain in [0, 1] the output sample exists, is no larger in magnitude than the input sample and has its
sign or is 0, so it fits an i16. -/
def Obligations.OutputNeverExceedsTheSample : Prop :=
  ∀ (st : Regs) (s : Sample), InUnit st.gain →
    ∃ o, applyGain st s = .ok o ∧ o.natAbs ≤ (sext16 s).natAbs ∧ (0 < o → 0 < sext16 s) ∧ (o < 0 → sext16 s < 0)

/-! The envelope follower. -/

/-- 40 R69: RECTIFY is the mathematical absolute value, 0 to 32768, with no 16-bit wrap. -/
def Obligations.RectifyNeverWraps : Prop :=
  (∀ s : Sample, rectify s = s.toInt.natAbs ∧ rectify s ≤ 32768) ∧ rectify 0x8000#16 = 32768

/-- 40 R70: with `exp` = 1.0 the envelope is |s| exactly. -/
def Obligations.UnitExpTracksTheSample : Prop :=
  ∀ (envelope : F64) (s : Sample), envelope.toNat ≤ envelopeCap.toNat →
    nextEnvelope 0x3FF0000000000000#64 envelope s = toF s.toInt.natAbs ∧
    value (nextEnvelope 0x3FF0000000000000#64 envelope s) = (s.toInt.natAbs : ℚ)

/-! The gain ramps. -/

/-- 41 R74: a ramp whose timer is 0 is at its clamped extreme at once, for every elapsed count. -/
def Obligations.ZeroTimerJumpsToTheExtreme : Prop :=
  ∀ (st : Regs) (d : Int), rampUp st d 0 = .ok 0x3FF0000000000000#64 ∧ rampDown st d 0 = .ok 0x0000000000000000#64

/-- 41 R75, R76: at elapsed count 0 the UP ramp is `floorGain` exactly and the DOWN ramp is `fsub(1.0, ceilGain)`. -/
def Obligations.RampsStartAtTheirBase : Prop :=
  ∀ (st : Regs) (T : U32), T ≠ 0 → InUnit st.floorGain → InUnit st.ceilGain →
    rampUp st 0 T = .ok st.floorGain ∧ rampDown st 0 T = .ok (fsub f1 st.ceilGain)

/-- 41 R75, R76: the UP ramp lies between `floorGain` and 1.0, the DOWN ramp between 0.0 and `fsub(1.0, ceilGain)`, itself
at most 1.0. -/
def Obligations.RampsStayWithinTheirClamps : Prop :=
  ∀ (st : Regs) (d : Int) (T : U32), 0 ≤ d → InUnit st.floorGain → InUnit st.ceilGain →
    InUnit (fsub f1 st.ceilGain) ∧
    (∃ u, rampUp st d T = .ok u ∧ st.floorGain.toNat ≤ u.toNat ∧ InUnit u) ∧
    (∃ w, rampDown st d T = .ok w ∧ w.toNat ≤ (fsub f1 st.ceilGain).toNat)

/-- 41 R75, R76: as the elapsed count grows the UP ramp never falls and the DOWN ramp never rises. -/
def Obligations.RampsAreMonotone : Prop :=
  ∀ (st : Regs) (d d' : Int) (T : U32) (u u' w w' : F64), 0 ≤ d → d ≤ d' → InUnit st.floorGain → InUnit st.ceilGain →
    rampUp st d T = .ok u → rampUp st d' T = .ok u' → rampDown st d T = .ok w → rampDown st d' T = .ok w' →
    u.toNat ≤ u'.toNat ∧ w'.toNat ≤ w.toNat

/-- 41 R77, R78: the entries of the two phases, and that they do nothing in their own phase. -/
def Obligations.PhaseEntriesTakeSnapshots : Prop :=
  ∀ st : Regs,
    (st.phaseStart = 0 → enterUp st =
      { st with ceilGain := st.gain, phaseStart := st.frameIndex, phaseEnd := 0 }) ∧
    (st.phaseStart ≠ 0 → enterUp st = st) ∧
    (st.phaseEnd = 0 → enterDown st =
      { st with floorGain := st.gain, ceilGain := fsub f1 st.ceilGain, phaseEnd := st.frameIndex, phaseStart := 0 }) ∧
    (st.phaseEnd ≠ 0 → enterDown st = st) ∧
    (st.frameIndex ≠ 0 → phase (enterUp st) = .up) ∧
    (st.frameIndex ≠ 0 → (st.phaseEnd ≠ 0 → st.phaseStart = 0) → phase (enterDown st) = .down)

/-- 41 R79, R80: tracking writes the greater of `ceilGain` and `gain`, the lesser of `floorGain` and `gain`, and nothing
else. -/
def Obligations.TrackingKeepsTheExtremes : Prop :=
  ∀ st : Regs, InUnit st.gain → InUnit st.ceilGain → InUnit st.floorGain →
    trackUp st = .ok { st with ceilGain := if st.ceilGain.toNat < st.gain.toNat then st.gain else st.ceilGain } ∧
    trackDown st = .ok { st with floorGain := if st.gain.toNat < st.floorGain.toNat then st.gain else st.floorGain }

/-! The phase selects. -/

/-- 42 R85: with `threshold` = 0 no frame is an UP frame; with `gain` = 0.0 and `threshold` ≥ 1 every frame is, whatever
the envelope. -/
def Obligations.CompressorSelectAtItsExtremes : Prop :=
  ∀ st : Regs, InUnit st.gain → st.envelope.toNat ≤ envelopeCap.toNat →
    (st.threshold = 0 → compSelect st = .ok false) ∧
    (st.gain = 0x0000000000000000#64 → st.threshold ≠ 0 → compSelect st = .ok true)

/-- 43 R91: the Gate opens exactly where the value of the envelope is above the threshold. -/
def Obligations.GateOpensStrictlyAboveTheThreshold : Prop :=
  ∀ st : Regs, isFinite st.envelope = true →
    ∃ up, gateSelect st = .ok up ∧ (up = true ↔ (st.threshold.toNat : ℚ) < value st.envelope)

/-! The per-frame steps. -/

/-- 42 R84: on a legal instance a Compressor frame has no error outcome; what a frame leaves in every field, and its output
sample. -/
def Obligations.CompressorFrameFollowsTheAlgorithm : Prop :=
  (∀ (st : Regs) (s : Sample), Legal st → st.frameIndex.toNat < 2 ^ 64 - 1 → ∃ r, compStep st s = .ok r) ∧
  ∀ (st st' : Regs) (s : Sample) (o : Int), compStep st s = .ok (st', o) →
    ∀ (env : F64), env = fadd (fmul st.exp (toF s.toInt.natAbs)) (fmul (fsub f1 st.exp) st.envelope) →
    st'.mode = st.mode ∧ st'.variant = st.variant ∧ st'.attack = st.attack ∧ st'.release = st.release ∧
    st'.hold = st.hold ∧ st'.threshold = st.threshold ∧ st'.exp = st.exp ∧
    st'.frameIndex = st.frameIndex + 1 ∧ st'.envelope = env ∧ trunc (fmul (toF s.toInt) st'.gain) = .ok o ∧
    (if fltOrdered (fmul env st.gain) (toF st.threshold.toNat) = true then
      st'.phaseStart = (if st.phaseStart = 0 then st.frameIndex + 1 else st.phaseStart) ∧
      st'.phaseEnd = (if st.phaseStart = 0 then 0 else st.phaseEnd) ∧
      st'.floorGain = st.floorGain ∧
      (if st.release = 0 then .ok f1 else
        fmin (fadd st.floorGain (fdiv (toF ((st'.frameIndex.toNat : Int) - st'.phaseStart.toNat))
          (toF st.release.toNat))) f1) = .ok st'.gain ∧
      fmax (if st.phaseStart = 0 then st.gain else st.ceilGain) st'.gain = .ok st'.ceilGain
    else
      st'.phaseEnd = (if st.phaseEnd = 0 then st.frameIndex + 1 else st.phaseEnd) ∧
      st'.phaseStart = (if st.phaseEnd = 0 then 0 else st.phaseStart) ∧
      st'.ceilGain = (if st.phaseEnd = 0 then fsub f1 st.ceilGain else st.ceilGain) ∧
      (if st.attack = 0 then .ok f0 else
        fmax (fsub (fsub f1 (fdiv (toF ((st'.frameIndex.toNat : Int) - st'.phaseEnd.toNat))
          (toF st.attack.toNat))) st'.ceilGain) f0) = .ok st'.gain ∧
      fmin (if st.phaseEnd = 0 then st.gain else st.floorGain) st'.gain = .ok st'.floorGain)

/-- 43 R90: on a legal instance a Gate frame has no error outcome; what a frame leaves in every field, and its output
sample. -/
def Obligations.GateFrameFollowsTheAlgorithm : Prop :=
  (∀ (st : Regs) (s : Sample), Legal st → st.frameIndex.toNat < 2 ^ 64 - 1 → ∃ r, gateStep st s = .ok r) ∧
  ∀ (st st' : Regs) (s : Sample) (o : Int), gateStep st s = .ok (st', o) →
    ∀ (env : F64), env = fadd (fmul st.exp (toF s.toInt.natAbs)) (fmul (fsub f1 st.exp) st.envelope) →
    st'.mode = st.mode ∧ st'.variant = st.variant ∧ st'.attack = st.attack ∧ st'.release = st.release ∧
    st'.hold = st.hold ∧ st'.threshold = st.threshold ∧ st'.exp = st.exp ∧
    st'.frameIndex = st.frameIndex + 1 ∧ st'.envelope = env ∧ trunc (fmul (toF s.toInt) st'.gain) = .ok o ∧
    (if fgtOrdered env (toF st.threshold.toNat) = true then
      st'.phaseStart = (if st.phaseStart = 0 then st.frameIndex + 1 else st.phaseStart) ∧
      st'.phaseEnd = (if st.phaseStart = 0 then 0 else st.phaseEnd) ∧
      st'.floorGain = st.floorGain ∧
      (if st.attack = 0 then .ok f1 else
        fmin (fadd st.floorGain (fdiv (toF ((st'.frameIndex.toNat : Int) - st'.phaseStart.toNat))
          (toF st.attack.toNat))) f1) = .ok st'.gain ∧
      fmax (if st.phaseStart = 0 then st.gain else st.ceilGain) st'.gain = .ok st'.ceilGain
    else
      st'.phaseEnd = (if st.phaseEnd = 0 then st.frameIndex + 1 else st.phaseEnd) ∧
      st'.phaseStart = (if st.phaseEnd = 0 then 0 else st.phaseStart) ∧
      st'.ceilGain = (if st.phaseEnd = 0 then fsub f1 st.ceilGain else st.ceilGain) ∧
      (if (st'.frameIndex.toNat : Int) - st'.phaseEnd.toNat < st.hold.toNat then .ok st.gain
       else if st.release = 0 then .ok f0 else
        fmax (fsub (fsub f1 (fdiv (toF ((st'.frameIndex.toNat : Int) - st'.phaseEnd.toNat - st.hold.toNat))
          (toF st.release.toNat))) st'.ceilGain) f0) = .ok st'.gain ∧
      fmin (if st.phaseEnd = 0 then st.gain else st.floorGain) st'.gain = .ok st'.floorGain)

/-- 42 R89, first two bullets: with timers that are not 0, the first frame after the construction of a Compressor has gain
0.0 and output 0, whatever its sample, and leaves `ceilGain` = 1.0. -/
def Obligations.FirstCompressorFrameIsSilent : Prop :=
  ∀ (a r t : U32) (e : F64) (s : Sample), a ≠ 0 → r ≠ 0 → 0 < e.toNat → InUnit e →
    ∃ st, compStep (construct .comp a r 0 t e) s = .ok (st, 0) ∧ st.gain = 0x0000000000000000#64 ∧
      st.ceilGain = 0x3FF0000000000000#64 ∧ st.floorGain = 0x0000000000000000#64 ∧ st.frameIndex = 1

/-- 42 R89, first bullet: a new Compressor with `threshold` ≥ 1 on silence stays in the UP phase; its gain on frame f is
(f - 1) / `release`, and 1.0 from frame `release` + 1 on. -/
def Obligations.SilentCompressorRampsToOne : Prop :=
  ∀ (a r t : U32) (e : F64) (f : Nat), t ≠ 0 → 0 < e.toNat → InUnit e → 1 ≤ f → f < 2 ^ 64 →
    ∃ st out, frameLoop (construct .comp a r 0 t e) (List.replicate (2 * f) 0x00#8) = .ok (st, out) ∧
      phase st = .up ∧ st.frameIndex.toNat = f ∧ st.phaseStart = 1 ∧
      (f ≤ r.toNat → st.gain = fdiv (toF ((f - 1 : Nat) : Int)) (toF r.toNat)) ∧
      (r.toNat + 1 ≤ f → st.gain = 0x3FF0000000000000#64)

/-- 43 R96, second bullet, on silence: a new Gate stays in the DOWN phase from frame 1 on; its gain stays 1.0 through the
`hold` frames of the hold and is 0.0 from the next frame on. -/
def Obligations.SilentGateHoldsThenCloses : Prop :=
  ∀ (a h r t : U32) (e : F64) (f : Nat), 0 < e.toNat → InUnit e → 1 ≤ f → f < 2 ^ 64 →
    ∃ st out, frameLoop (construct .gate a r h t e) (List.replicate (2 * f) 0x00#8) = .ok (st, out) ∧
      phase st = .down ∧ st.frameIndex.toNat = f ∧ st.phaseEnd = 1 ∧
      (f ≤ h.toNat → st.gain = 0x3FF0000000000000#64) ∧
      (h.toNat + 1 ≤ f → st.gain = 0x0000000000000000#64)

/-! The arithmetic. -/

/-- 00_scope section 4: fadd, fsub, fmul, fdiv and toF on finite operands return the exact result, rounded once to the nearest
binary64, ties to even. That a result of magnitude 2^1024 - 2^970 or more is an infinity is taken from IEEE 754 (log 1,
DEDUCED). -/
def Obligations.ArithmeticIsCorrectlyRounded : Prop :=
  (∀ a b : F64, isFinite a = true → isFinite b = true →
    Rounded (value a + value b) (fadd a b) ∧ Rounded (value a - value b) (fsub a b) ∧
    Rounded (value a * value b) (fmul a b) ∧ (value b ≠ 0 → Rounded (value a / value b) (fdiv a b))) ∧
  (∀ i : Int, Rounded (i : ℚ) (toF i))

/-- The sign of every result of finite operands, a zero's included, which `Rounded` leaves open: with
ArithmeticIsCorrectlyRounded it fixes every bit. Taken from IEEE 754 (log 1, DEDUCED): 00_scope section 4 names that standard
and spells out no sign. -/
def Obligations.ResultsHaveTheIeeeSign : Prop :=
  (∀ a b : F64, isFinite a = true → isFinite b = true →
    fneg (fadd a b) = (if value a + value b = 0 then fneg a && fneg b else decide (value a + value b < 0)) ∧
    fneg (fsub a b) = (if value a - value b = 0 then fneg a && !fneg b else decide (value a - value b < 0)) ∧
    fneg (fmul a b) = (fneg a != fneg b) ∧ (value b ≠ 0 → fneg (fdiv a b) = (fneg a != fneg b))) ∧
  (∀ i : Int, fneg (toF i) = decide (i < 0))

/-- 00_scope section 4: on finite operands flt and fgt answer, and answer the order of the values; fmin and fmax answer the
operand of the lesser and of the greater value, on a tie the first. -/
def Obligations.ComparisonsFollowTheValues : Prop :=
  ∀ a b : F64, isFinite a = true → isFinite b = true →
    flt a b = .ok (decide (value a < value b)) ∧ fgt a b = .ok (decide (value b < value a)) ∧
    fmin a b = .ok (if value b < value a then b else a) ∧ fmax a b = .ok (if value a < value b then b else a)

/-- 00 R14: `trunc` of a finite value is the integer nearest it in the direction of zero. -/
def Obligations.TruncationIsTowardZero : Prop :=
  ∀ x : F64, isFinite x = true →
    ∃ i : Int, trunc x = .ok i ∧ |(i : ℚ)| ≤ |value x| ∧ |value x| < |(i : ℚ)| + 1 ∧ 0 ≤ (i : ℚ) * value x

/-- 00 R15: a NaN operand of flt, fgt, fmin, fmax or trunc faults with `numeric_nan`. -/
def Obligations.NanOperandsFault : Prop :=
  ∀ a b : F64, isNaN a = true ∨ isNaN b = true →
    flt a b = .error .numericNan ∧ fgt a b = .error .numericNan ∧ fmin a b = .error .numericNan ∧
    fmax a b = .error .numericNan ∧ (isNaN a = true → trunc a = .error .numericNan)

/-- 10 R34: the patterns the invariant allows a gain are those of the values in [0, 1] without -0.0. -/
def Obligations.UnitPatternsAreValuesZeroToOne : Prop :=
  ∀ x : F64, InUnit x ↔ (isFinite x = true ∧ fneg x = false ∧ value x ≤ 1)

/-! Headline results. -/

/-- 10 R34 to R38: every step from every state that meets the invariant leads to a state that meets it. The cap on the
envelope is the model's own (10 R38 gives none). -/
def Obligations.EveryStepKeepsTheInvariant : Prop :=
  ∀ s t : State, Invariant s → step s = .next t → Invariant t

/-- 00 R15: from a state that meets the invariant no step meets a NaN. -/
def Obligations.NoLegalStepFaults : Prop :=
  ∀ (s : State) (f : Fault), Invariant s → step s ≠ .fault f

/-- 70 R134: before construction no command reads the fields that hold no value: two UNINIT states that differ only in
them take steps that answer alike, and the same instance where one constructs it. -/
def Obligations.UnconstructedFieldsAreNeverRead : Prop :=
  ∀ s s' : State, s.regs.mode = .uninit → s'.regs.mode = .uninit → s'.port = s.port → s'.response = s.response →
    (∀ r, step s = .refused r ↔ step s' = .refused r) ∧ (∀ f, step s ≠ .fault f) ∧
    (∀ t, step s = .next t → ∃ t', step s' = .next t' ∧ t'.port = t.port ∧ t'.response = t.response ∧
      t'.regs.mode = t.regs.mode ∧ (t.regs.mode = .ready → t'.regs = t.regs) ∧
      (t.regs.mode = .uninit → t.regs = s.regs ∧ t'.regs = s'.regs))
end

