-- ==== Sys2Proof/Laws/State.lean ====
section
/-! SUPPORT. One lemma per field per update of the state, each true by rfl. -/

namespace Sys2Proof.Laws

open Sys2Proof.Machine

/-! `respondOk` and `raiseStatus` write the response only. -/

@[simp] theorem respondOk_regs (p : List Byte) (s : State) : (respondOk p s).regs = s.regs := rfl
@[simp] theorem respondOk_port (p : List Byte) (s : State) : (respondOk p s).port = s.port := rfl
@[simp] theorem raiseStatus_regs (e : Status) (s : State) : (raiseStatus e s).regs = s.regs := rfl
@[simp] theorem raiseStatus_port (e : Status) (s : State) : (raiseStatus e s).port = s.port := rfl
@[simp] theorem respondOk_response (p : List Byte) (s : State) : (respondOk p s).response = 0x00#8 :: p := rfl
@[simp] theorem raiseStatus_response (e : Status) (s : State) : (raiseStatus e s).response = [statusCode e] := rfl

/-! `placeCommand` writes the port only. -/

@[simp] theorem placeCommand_regs (s : State) (nbits w : Nat) : (placeCommand s nbits w).regs = s.regs := rfl
@[simp] theorem placeCommand_port (s : State) (nbits w : Nat) : (placeCommand s nbits w).port = tableBytes nbits w := rfl
@[simp] theorem placeCommand_response (s : State) (nbits w : Nat) : (placeCommand s nbits w).response = s.response := rfl

/-! `frameAdvance` writes `frameIndex` only (R72). -/

@[simp] theorem frameAdvance_mode (st : Regs) : (frameAdvance st).mode = st.mode := rfl
@[simp] theorem frameAdvance_variant (st : Regs) : (frameAdvance st).variant = st.variant := rfl
@[simp] theorem frameAdvance_attack (st : Regs) : (frameAdvance st).attack = st.attack := rfl
@[simp] theorem frameAdvance_release (st : Regs) : (frameAdvance st).release = st.release := rfl
@[simp] theorem frameAdvance_hold (st : Regs) : (frameAdvance st).hold = st.hold := rfl
@[simp] theorem frameAdvance_threshold (st : Regs) : (frameAdvance st).threshold = st.threshold := rfl
@[simp] theorem frameAdvance_exp (st : Regs) : (frameAdvance st).exp = st.exp := rfl
@[simp] theorem frameAdvance_gain (st : Regs) : (frameAdvance st).gain = st.gain := rfl
@[simp] theorem frameAdvance_envelope (st : Regs) : (frameAdvance st).envelope = st.envelope := rfl
@[simp] theorem frameAdvance_floorGain (st : Regs) : (frameAdvance st).floorGain = st.floorGain := rfl
@[simp] theorem frameAdvance_ceilGain (st : Regs) : (frameAdvance st).ceilGain = st.ceilGain := rfl
@[simp] theorem frameAdvance_frameIndex (st : Regs) : (frameAdvance st).frameIndex = st.frameIndex + 1 := rfl
@[simp] theorem frameAdvance_phaseStart (st : Regs) : (frameAdvance st).phaseStart = st.phaseStart := rfl
@[simp] theorem frameAdvance_phaseEnd (st : Regs) : (frameAdvance st).phaseEnd = st.phaseEnd := rfl

/-! `envUpdate` writes `envelope` only (R70). -/

@[simp] theorem envUpdate_mode (s : Sample) (st : Regs) : (envUpdate s st).mode = st.mode := rfl
@[simp] theorem envUpdate_variant (s : Sample) (st : Regs) : (envUpdate s st).variant = st.variant := rfl
@[simp] theorem envUpdate_attack (s : Sample) (st : Regs) : (envUpdate s st).attack = st.attack := rfl
@[simp] theorem envUpdate_release (s : Sample) (st : Regs) : (envUpdate s st).release = st.release := rfl
@[simp] theorem envUpdate_hold (s : Sample) (st : Regs) : (envUpdate s st).hold = st.hold := rfl
@[simp] theorem envUpdate_threshold (s : Sample) (st : Regs) : (envUpdate s st).threshold = st.threshold := rfl
@[simp] theorem envUpdate_exp (s : Sample) (st : Regs) : (envUpdate s st).exp = st.exp := rfl
@[simp] theorem envUpdate_gain (s : Sample) (st : Regs) : (envUpdate s st).gain = st.gain := rfl
@[simp] theorem envUpdate_envelope (s : Sample) (st : Regs) : (envUpdate s st).envelope = nextEnvelope st.exp st.envelope s := rfl
@[simp] theorem envUpdate_floorGain (s : Sample) (st : Regs) : (envUpdate s st).floorGain = st.floorGain := rfl
@[simp] theorem envUpdate_ceilGain (s : Sample) (st : Regs) : (envUpdate s st).ceilGain = st.ceilGain := rfl
@[simp] theorem envUpdate_frameIndex (s : Sample) (st : Regs) : (envUpdate s st).frameIndex = st.frameIndex := rfl
@[simp] theorem envUpdate_phaseStart (s : Sample) (st : Regs) : (envUpdate s st).phaseStart = st.phaseStart := rfl
@[simp] theorem envUpdate_phaseEnd (s : Sample) (st : Regs) : (envUpdate s st).phaseEnd = st.phaseEnd := rfl

/-! `construct` writes every field (R135). -/

@[simp] theorem construct_mode (v : Variant) (a r h t : U32) (e : F64) : (construct v a r h t e).mode = .ready := rfl
@[simp] theorem construct_variant (v : Variant) (a r h t : U32) (e : F64) : (construct v a r h t e).variant = v := rfl
@[simp] theorem construct_attack (v : Variant) (a r h t : U32) (e : F64) : (construct v a r h t e).attack = a := rfl
@[simp] theorem construct_release (v : Variant) (a r h t : U32) (e : F64) : (construct v a r h t e).release = r := rfl
@[simp] theorem construct_hold (v : Variant) (a r h t : U32) (e : F64) : (construct v a r h t e).hold = h := rfl
@[simp] theorem construct_threshold (v : Variant) (a r h t : U32) (e : F64) : (construct v a r h t e).threshold = t := rfl
@[simp] theorem construct_exp (v : Variant) (a r h t : U32) (e : F64) : (construct v a r h t e).exp = e := rfl
@[simp] theorem construct_gain (v : Variant) (a r h t : U32) (e : F64) : (construct v a r h t e).gain = f1 := rfl
@[simp] theorem construct_envelope (v : Variant) (a r h t : U32) (e : F64) : (construct v a r h t e).envelope = f0 := rfl
@[simp] theorem construct_floorGain (v : Variant) (a r h t : U32) (e : F64) : (construct v a r h t e).floorGain = config.initFloorGain := rfl
@[simp] theorem construct_ceilGain (v : Variant) (a r h t : U32) (e : F64) : (construct v a r h t e).ceilGain = config.initCeilGain := rfl
@[simp] theorem construct_frameIndex (v : Variant) (a r h t : U32) (e : F64) : (construct v a r h t e).frameIndex = 0 := rfl
@[simp] theorem construct_phaseStart (v : Variant) (a r h t : U32) (e : F64) : (construct v a r h t e).phaseStart = 0 := rfl
@[simp] theorem construct_phaseEnd (v : Variant) (a r h t : U32) (e : F64) : (construct v a r h t e).phaseEnd = 0 := rfl

/-! `writeParam` writes its register only (R112 to R115). -/

@[simp] theorem writeParam_attack_mode (v : U32) (st : Regs) : (writeParam .attack v st).mode = st.mode := rfl
@[simp] theorem writeParam_attack_variant (v : U32) (st : Regs) : (writeParam .attack v st).variant = st.variant := rfl
@[simp] theorem writeParam_attack_attack (v : U32) (st : Regs) : (writeParam .attack v st).attack = v := rfl
@[simp] theorem writeParam_attack_release (v : U32) (st : Regs) : (writeParam .attack v st).release = st.release := rfl
@[simp] theorem writeParam_attack_hold (v : U32) (st : Regs) : (writeParam .attack v st).hold = st.hold := rfl
@[simp] theorem writeParam_attack_threshold (v : U32) (st : Regs) : (writeParam .attack v st).threshold = st.threshold := rfl
@[simp] theorem writeParam_attack_exp (v : U32) (st : Regs) : (writeParam .attack v st).exp = st.exp := rfl
@[simp] theorem writeParam_attack_gain (v : U32) (st : Regs) : (writeParam .attack v st).gain = st.gain := rfl
@[simp] theorem writeParam_attack_envelope (v : U32) (st : Regs) : (writeParam .attack v st).envelope = st.envelope := rfl
@[simp] theorem writeParam_attack_floorGain (v : U32) (st : Regs) : (writeParam .attack v st).floorGain = st.floorGain := rfl
@[simp] theorem writeParam_attack_ceilGain (v : U32) (st : Regs) : (writeParam .attack v st).ceilGain = st.ceilGain := rfl
@[simp] theorem writeParam_attack_frameIndex (v : U32) (st : Regs) : (writeParam .attack v st).frameIndex = st.frameIndex := rfl
@[simp] theorem writeParam_attack_phaseStart (v : U32) (st : Regs) : (writeParam .attack v st).phaseStart = st.phaseStart := rfl
@[simp] theorem writeParam_attack_phaseEnd (v : U32) (st : Regs) : (writeParam .attack v st).phaseEnd = st.phaseEnd := rfl
@[simp] theorem writeParam_release_mode (v : U32) (st : Regs) : (writeParam .release v st).mode = st.mode := rfl
@[simp] theorem writeParam_release_variant (v : U32) (st : Regs) : (writeParam .release v st).variant = st.variant := rfl
@[simp] theorem writeParam_release_attack (v : U32) (st : Regs) : (writeParam .release v st).attack = st.attack := rfl
@[simp] theorem writeParam_release_release (v : U32) (st : Regs) : (writeParam .release v st).release = v := rfl
@[simp] theorem writeParam_release_hold (v : U32) (st : Regs) : (writeParam .release v st).hold = st.hold := rfl
@[simp] theorem writeParam_release_threshold (v : U32) (st : Regs) : (writeParam .release v st).threshold = st.threshold := rfl
@[simp] theorem writeParam_release_exp (v : U32) (st : Regs) : (writeParam .release v st).exp = st.exp := rfl
@[simp] theorem writeParam_release_gain (v : U32) (st : Regs) : (writeParam .release v st).gain = st.gain := rfl
@[simp] theorem writeParam_release_envelope (v : U32) (st : Regs) : (writeParam .release v st).envelope = st.envelope := rfl
@[simp] theorem writeParam_release_floorGain (v : U32) (st : Regs) : (writeParam .release v st).floorGain = st.floorGain := rfl
@[simp] theorem writeParam_release_ceilGain (v : U32) (st : Regs) : (writeParam .release v st).ceilGain = st.ceilGain := rfl
@[simp] theorem writeParam_release_frameIndex (v : U32) (st : Regs) : (writeParam .release v st).frameIndex = st.frameIndex := rfl
@[simp] theorem writeParam_release_phaseStart (v : U32) (st : Regs) : (writeParam .release v st).phaseStart = st.phaseStart := rfl
@[simp] theorem writeParam_release_phaseEnd (v : U32) (st : Regs) : (writeParam .release v st).phaseEnd = st.phaseEnd := rfl
@[simp] theorem writeParam_hold_mode (v : U32) (st : Regs) : (writeParam .hold v st).mode = st.mode := rfl
@[simp] theorem writeParam_hold_variant (v : U32) (st : Regs) : (writeParam .hold v st).variant = st.variant := rfl
@[simp] theorem writeParam_hold_attack (v : U32) (st : Regs) : (writeParam .hold v st).attack = st.attack := rfl
@[simp] theorem writeParam_hold_release (v : U32) (st : Regs) : (writeParam .hold v st).release = st.release := rfl
@[simp] theorem writeParam_hold_hold (v : U32) (st : Regs) : (writeParam .hold v st).hold = v := rfl
@[simp] theorem writeParam_hold_threshold (v : U32) (st : Regs) : (writeParam .hold v st).threshold = st.threshold := rfl
@[simp] theorem writeParam_hold_exp (v : U32) (st : Regs) : (writeParam .hold v st).exp = st.exp := rfl
@[simp] theorem writeParam_hold_gain (v : U32) (st : Regs) : (writeParam .hold v st).gain = st.gain := rfl
@[simp] theorem writeParam_hold_envelope (v : U32) (st : Regs) : (writeParam .hold v st).envelope = st.envelope := rfl
@[simp] theorem writeParam_hold_floorGain (v : U32) (st : Regs) : (writeParam .hold v st).floorGain = st.floorGain := rfl
@[simp] theorem writeParam_hold_ceilGain (v : U32) (st : Regs) : (writeParam .hold v st).ceilGain = st.ceilGain := rfl
@[simp] theorem writeParam_hold_frameIndex (v : U32) (st : Regs) : (writeParam .hold v st).frameIndex = st.frameIndex := rfl
@[simp] theorem writeParam_hold_phaseStart (v : U32) (st : Regs) : (writeParam .hold v st).phaseStart = st.phaseStart := rfl
@[simp] theorem writeParam_hold_phaseEnd (v : U32) (st : Regs) : (writeParam .hold v st).phaseEnd = st.phaseEnd := rfl
@[simp] theorem writeParam_threshold_mode (v : U32) (st : Regs) : (writeParam .threshold v st).mode = st.mode := rfl
@[simp] theorem writeParam_threshold_variant (v : U32) (st : Regs) : (writeParam .threshold v st).variant = st.variant := rfl
@[simp] theorem writeParam_threshold_attack (v : U32) (st : Regs) : (writeParam .threshold v st).attack = st.attack := rfl
@[simp] theorem writeParam_threshold_release (v : U32) (st : Regs) : (writeParam .threshold v st).release = st.release := rfl
@[simp] theorem writeParam_threshold_hold (v : U32) (st : Regs) : (writeParam .threshold v st).hold = st.hold := rfl
@[simp] theorem writeParam_threshold_threshold (v : U32) (st : Regs) : (writeParam .threshold v st).threshold = v := rfl
@[simp] theorem writeParam_threshold_exp (v : U32) (st : Regs) : (writeParam .threshold v st).exp = st.exp := rfl
@[simp] theorem writeParam_threshold_gain (v : U32) (st : Regs) : (writeParam .threshold v st).gain = st.gain := rfl
@[simp] theorem writeParam_threshold_envelope (v : U32) (st : Regs) : (writeParam .threshold v st).envelope = st.envelope := rfl
@[simp] theorem writeParam_threshold_floorGain (v : U32) (st : Regs) : (writeParam .threshold v st).floorGain = st.floorGain := rfl
@[simp] theorem writeParam_threshold_ceilGain (v : U32) (st : Regs) : (writeParam .threshold v st).ceilGain = st.ceilGain := rfl
@[simp] theorem writeParam_threshold_frameIndex (v : U32) (st : Regs) : (writeParam .threshold v st).frameIndex = st.frameIndex := rfl
@[simp] theorem writeParam_threshold_phaseStart (v : U32) (st : Regs) : (writeParam .threshold v st).phaseStart = st.phaseStart := rfl
@[simp] theorem writeParam_threshold_phaseEnd (v : U32) (st : Regs) : (writeParam .threshold v st).phaseEnd = st.phaseEnd := rfl

/-! `readParam` by register (R18 to R21). -/

@[simp] theorem readParam_attack (st : Regs) : readParam .attack st = st.attack := rfl
@[simp] theorem readParam_release (st : Regs) : readParam .release st = st.release := rfl
@[simp] theorem readParam_hold (st : Regs) : readParam .hold st = st.hold := rfl
@[simp] theorem readParam_threshold (st : Regs) : readParam .threshold st = st.threshold := rfl

/-! The entries of a phase, by whether its counter is 0 (R77, R78). -/

theorem enterUp_of_zero {st : Regs} (h : st.phaseStart = 0) :
    enterUp st = { st with ceilGain := st.gain, phaseStart := st.frameIndex, phaseEnd := 0 } := by
  simp [enterUp, h]
theorem enterUp_of_ne {st : Regs} (h : st.phaseStart ≠ 0) : enterUp st = st := if_neg h
theorem enterDown_of_zero {st : Regs} (h : st.phaseEnd = 0) :
    enterDown st = { st with floorGain := st.gain, ceilGain := fsub f1 st.ceilGain, phaseEnd := st.frameIndex,
                             phaseStart := 0 } := by
  simp [enterDown, h]
theorem enterDown_of_ne {st : Regs} (h : st.phaseEnd ≠ 0) : enterDown st = st := if_neg h

@[simp] theorem enterUp_mode (st : Regs) : (enterUp st).mode = st.mode := by
  unfold enterUp; split <;> rfl
@[simp] theorem enterUp_variant (st : Regs) : (enterUp st).variant = st.variant := by
  unfold enterUp; split <;> rfl
@[simp] theorem enterUp_attack (st : Regs) : (enterUp st).attack = st.attack := by
  unfold enterUp; split <;> rfl
@[simp] theorem enterUp_release (st : Regs) : (enterUp st).release = st.release := by
  unfold enterUp; split <;> rfl
@[simp] theorem enterUp_hold (st : Regs) : (enterUp st).hold = st.hold := by
  unfold enterUp; split <;> rfl
@[simp] theorem enterUp_threshold (st : Regs) : (enterUp st).threshold = st.threshold := by
  unfold enterUp; split <;> rfl
@[simp] theorem enterUp_exp (st : Regs) : (enterUp st).exp = st.exp := by
  unfold enterUp; split <;> rfl
@[simp] theorem enterUp_gain (st : Regs) : (enterUp st).gain = st.gain := by
  unfold enterUp; split <;> rfl
@[simp] theorem enterUp_envelope (st : Regs) : (enterUp st).envelope = st.envelope := by
  unfold enterUp; split <;> rfl
@[simp] theorem enterUp_floorGain (st : Regs) : (enterUp st).floorGain = st.floorGain := by
  unfold enterUp; split <;> rfl
@[simp] theorem enterUp_frameIndex (st : Regs) : (enterUp st).frameIndex = st.frameIndex := by
  unfold enterUp; split <;> rfl
@[simp] theorem enterDown_mode (st : Regs) : (enterDown st).mode = st.mode := by
  unfold enterDown; split <;> rfl
@[simp] theorem enterDown_variant (st : Regs) : (enterDown st).variant = st.variant := by
  unfold enterDown; split <;> rfl
@[simp] theorem enterDown_attack (st : Regs) : (enterDown st).attack = st.attack := by
  unfold enterDown; split <;> rfl
@[simp] theorem enterDown_release (st : Regs) : (enterDown st).release = st.release := by
  unfold enterDown; split <;> rfl
@[simp] theorem enterDown_hold (st : Regs) : (enterDown st).hold = st.hold := by
  unfold enterDown; split <;> rfl
@[simp] theorem enterDown_threshold (st : Regs) : (enterDown st).threshold = st.threshold := by
  unfold enterDown; split <;> rfl
@[simp] theorem enterDown_exp (st : Regs) : (enterDown st).exp = st.exp := by
  unfold enterDown; split <;> rfl
@[simp] theorem enterDown_gain (st : Regs) : (enterDown st).gain = st.gain := by
  unfold enterDown; split <;> rfl
@[simp] theorem enterDown_envelope (st : Regs) : (enterDown st).envelope = st.envelope := by
  unfold enterDown; split <;> rfl
@[simp] theorem enterDown_frameIndex (st : Regs) : (enterDown st).frameIndex = st.frameIndex := by
  unfold enterDown; split <;> rfl

end Sys2Proof.Laws
end

