-- ==== Sys2Proof/Laws/Ops.lean ====
section
/-! SUPPORT. What each shared operation can do, said once. -/

namespace Sys2Proof.Laws

open Sys2Proof.Machine

/-- A sequence of two `Except` actions answers only where both do. -/
theorem bind_eq_ok {ε α β : Type} {x : Except ε α} {f : α → Except ε β} {r : β} :
    (x >>= f) = .ok r ↔ ∃ a, x = .ok a ∧ f a = .ok r := by
  cases x with
  | error e => constructor
               · intro h; cases h
               · rintro ⟨a, h, _⟩; cases h
  | ok a => exact ⟨fun h => ⟨a, rfl, h⟩, fun ⟨b, hb, h⟩ => by cases hb; exact h⟩

theorem ok_bind {ε α β : Type} (a : α) (f : α → Except ε β) : (Except.ok a >>= f) = f a := rfl

theorem pure_eq_ok {ε α : Type} (a : α) : (pure a : Except ε α) = .ok a := rfl

theorem whenReady_uninit {s : State} {act : Host.Outcome State Fault Refusal} (h : s.regs.mode = .uninit) :
    whenReady s act = .next (raiseStatus .notInitialised s) := by simp [whenReady, h]

theorem whenReady_ready {s : State} {act : Host.Outcome State Fault Refusal} (h : s.regs.mode = .ready) :
    whenReady s act = act := by simp [whenReady, h]

theorem whenGate_comp {s : State} {act : Host.Outcome State Fault Refusal} (h : s.regs.variant = .comp) :
    whenGate s act = .next (raiseStatus .illegalCommand s) := by simp [whenGate, h]

theorem whenGate_gate {s : State} {act : Host.Outcome State Fault Refusal} (h : s.regs.variant = .gate) :
    whenGate s act = act := by simp [whenGate, h]

/-- All that the mode check can answer. -/
theorem whenReady_next {s t : State} {act : Host.Outcome State Fault Refusal} (h : whenReady s act = .next t) :
    (s.regs.mode = .uninit ∧ t = raiseStatus .notInitialised s) ∨ (s.regs.mode = .ready ∧ act = .next t) := by
  cases hm : s.regs.mode with
  | uninit => rw [whenReady_uninit hm] at h; cases h; exact .inl ⟨rfl, rfl⟩
  | ready => rw [whenReady_ready hm] at h; exact .inr ⟨rfl, h⟩

/-- All that the variant check can answer. -/
theorem whenGate_next {s t : State} {act : Host.Outcome State Fault Refusal} (h : whenGate s act = .next t) :
    (s.regs.variant = .comp ∧ t = raiseStatus .illegalCommand s) ∨ (s.regs.variant = .gate ∧ act = .next t) := by
  cases hm : s.regs.variant with
  | comp => rw [whenGate_comp hm] at h; cases h; exact .inl ⟨rfl, rfl⟩
  | gate => rw [whenGate_gate hm] at h; exact .inr ⟨rfl, h⟩

/-- All that a construction can answer. -/
theorem constructWith_next {v : Variant} {a r h t : U32} {e : Option F64} {s u : State}
    (hu : constructWith v a r h t e s = .next u) :
    (expValid (expOperand e) = true ∧ u = respondOk [] { s with regs := construct v a r h t (expOperand e) }) ∨
    (expValid (expOperand e) = false ∧ u = raiseStatus .invalidParameter s) := by
  unfold constructWith at hu
  split at hu
  · next hv => cases hu; exact .inl ⟨hv, rfl⟩
  · next hv => cases hu; exact .inr ⟨by simpa using hv, rfl⟩

/-- A construction neither faults nor refuses. -/
theorem constructWith_answers (v : Variant) (a r h t : U32) (e : Option F64) (s : State) :
    ∃ u, constructWith v a r h t e s = .next u := by
  unfold constructWith; split <;> exact ⟨_, rfl⟩

/-- All that FEED can answer with a next state. -/
theorem execFeed_next {data : List Byte} {s t : State} (h : execFeed data s = .next t) :
    (s.regs.mode = .uninit ∧ t = raiseStatus .notInitialised s) ∨
    (s.regs.mode = .ready ∧ checkLength data.length = false ∧ t = raiseStatus .invalidBufferLength s) ∨
    (s.regs.mode = .ready ∧ checkLength data.length = true ∧
      s.regs.frameIndex.toNat + data.length / 2 ≤ 2 ^ 64 - 1 ∧
      ∃ st out, frameLoop s.regs data = .ok (st, out) ∧ t = respondOk out { s with regs := st }) := by
  rcases whenReady_next h with h | ⟨hm, h⟩
  · exact .inl h
  · refine .inr ?_
    split at h
    · next hc => cases h; exact .inl ⟨hm, hc, rfl⟩
    · next hc =>
      refine .inr ⟨hm, by simpa using hc, ?_⟩
      split at h
      · cases h
      · next hb =>
        refine ⟨by omega, ?_⟩
        split at h
        · next st out hf => cases h; exact ⟨st, out, hf, rfl⟩
        · cases h

/-- What the fetch finds, by what the port decodes to. -/
theorem fetch_nil {s : State} (h : s.port = []) : fetch s = .idle := by simp [fetch, h]

theorem decode_nil : decode [] = .error .incomplete := rfl

theorem fetch_ok {s : State} {i : Instr} {rest : List Byte} (h : decode s.port = .ok (i, rest)) :
    fetch s = .command i { s with port := rest } := by
  have hne : s.port ≠ [] := by intro hn; rw [hn, decode_nil] at h; cases h
  simp [fetch, hne, h]

theorem fetch_illegal {s : State} {w : U32} {rest : List Byte}
    (h : decode s.port = .error (.illegalHeader w rest)) : fetch s = .illegal { s with port := rest } := by
  have hne : s.port ≠ [] := by intro hn; rw [hn, decode_nil] at h; cases h
  simp [fetch, hne, h]

theorem fetch_incomplete {s : State} (hne : s.port ≠ []) (h : decode s.port = .error .incomplete) :
    fetch s = .cutOff := by simp [fetch, hne, h]

/-- All that a step can answer with a next state: the block was idle, or a command ran, or an illegal header ended its
command. -/
theorem step_next {s t : State} (h : step s = .next t) :
    (s.port = [] ∧ t = s) ∨
    (∃ i rest, decode s.port = .ok (i, rest) ∧ exec i { s with port := rest } = .next t) ∨
    (∃ w rest, decode s.port = .error (.illegalHeader w rest) ∧
      t = raiseStatus .illegalCommand { s with port := rest }) := by
  by_cases hp : s.port = []
  · rw [step, fetch_nil hp] at h; cases h; exact .inl ⟨hp, rfl⟩
  · refine .inr ?_
    cases hd : decode s.port with
    | ok r => obtain ⟨i, rest⟩ := r
              rw [step, fetch_ok hd] at h; exact .inl ⟨i, rest, rfl, h⟩
    | error e => cases e with
      | illegalHeader w rest => rw [step, fetch_illegal hd] at h; cases h; exact .inr ⟨w, rest, rfl, rfl⟩
      | incomplete => rw [step, fetch_incomplete hp hd] at h; cases h

/-- A step faults only where the command at the port does. -/
theorem step_fault {s : State} {f : Fault} (h : step s = .fault f) :
    ∃ i rest, decode s.port = .ok (i, rest) ∧ exec i { s with port := rest } = .fault f := by
  by_cases hp : s.port = []
  · rw [step, fetch_nil hp] at h; cases h
  · cases hd : decode s.port with
    | ok r => obtain ⟨i, rest⟩ := r
              rw [step, fetch_ok hd] at h; exact ⟨i, rest, rfl, h⟩
    | error e => cases e with
      | illegalHeader w rest => rw [step, fetch_illegal hd] at h; cases h
      | incomplete => rw [step, fetch_incomplete hp hd] at h; cases h

/-- A frame loop over one pair and the rest. -/
theorem frameLoop_cons (st : Regs) (b0 b1 : Byte) (rest : List Byte) :
    frameLoop st (b0 :: b1 :: rest) =
      (frameStep st (decodeFrame b0 b1) >>= fun p =>
        frameLoop p.1 rest >>= fun q => .ok (q.1, encodeFrame p.2 ++ q.2)) := by
  rw [frameLoop]; rfl

theorem frameLoop_nil (st : Regs) : frameLoop st [] = .ok (st, []) := by simp [frameLoop]

/-- All that a frame loop over a pair and the rest can answer. -/
theorem frameLoop_cons_ok {st st' : Regs} {b0 b1 : Byte} {rest out : List Byte}
    (h : frameLoop st (b0 :: b1 :: rest) = .ok (st', out)) :
    ∃ st1 o out', frameStep st (decodeFrame b0 b1) = .ok (st1, o) ∧ frameLoop st1 rest = .ok (st', out') ∧
      out = encodeFrame o ++ out' := by
  rw [frameLoop_cons] at h
  obtain ⟨⟨st1, o⟩, h1, h⟩ := bind_eq_ok.1 h
  obtain ⟨⟨st2, out'⟩, h2, h⟩ := bind_eq_ok.1 h
  cases h
  exact ⟨st1, o, out', h1, h2, rfl⟩

/-- All that the UP branch can answer (R86, R92). -/
theorem upBranch_ok {T : U32} {st st' : Regs} (h : upBranch T st = .ok st') :
    ∃ g c, rampUp (enterUp st) (elapsedUp (enterUp st)) T = .ok g ∧ fmax (enterUp st).ceilGain g = .ok c ∧
      st' = { enterUp st with gain := g, ceilGain := c } := by
  obtain ⟨g, hg, h⟩ := bind_eq_ok.1 h
  obtain ⟨c, hc, h⟩ := bind_eq_ok.1 h
  cases h
  exact ⟨g, c, hg, hc, rfl⟩

/-- All that the COMP DOWN branch can answer (R87). -/
theorem compDown_ok {st st' : Regs} (h : compDown st = .ok st') :
    ∃ g f, rampDown (enterDown st) (elapsedDown (enterDown st)) st.attack = .ok g ∧
      fmin (enterDown st).floorGain g = .ok f ∧ st' = { enterDown st with gain := g, floorGain := f } := by
  obtain ⟨g, hg, h⟩ := bind_eq_ok.1 h
  obtain ⟨f, hf, h⟩ := bind_eq_ok.1 h
  cases h
  exact ⟨g, f, by simpa using hg, hf, rfl⟩

/-- All that the GATE DOWN branch can answer (R93, R94). -/
theorem gateDown_ok {st st' : Regs} (h : gateDown st = .ok st') :
    ∃ g f, gateDownGain (enterDown st) = .ok g ∧ fmin (enterDown st).floorGain g = .ok f ∧
      st' = { enterDown st with gain := g, floorGain := f } := by
  obtain ⟨g, hg, h⟩ := bind_eq_ok.1 h
  obtain ⟨f, hf, h⟩ := bind_eq_ok.1 h
  cases h
  exact ⟨g, f, hg, hf, rfl⟩

/-- All that a COMP frame can answer (R84). -/
theorem compStep_ok {st st' : Regs} {s : Sample} {o : Int} (h : compStep st s = .ok (st', o)) :
    ∃ up, compSelect (envUpdate s (frameAdvance st)) = .ok up ∧
      compBranch up (envUpdate s (frameAdvance st)) = .ok st' ∧
      applyGain st' s = .ok o := by
  obtain ⟨up, hu, h⟩ := bind_eq_ok.1 h
  obtain ⟨st2, h2, h⟩ := bind_eq_ok.1 h
  obtain ⟨o2, h3, h⟩ := bind_eq_ok.1 h
  cases h
  exact ⟨up, hu, h2, h3⟩

/-- All that a GATE frame can answer (R90). -/
theorem gateStep_ok {st st' : Regs} {s : Sample} {o : Int} (h : gateStep st s = .ok (st', o)) :
    ∃ up, gateSelect (envUpdate s (frameAdvance st)) = .ok up ∧
      gateBranch up (envUpdate s (frameAdvance st)) = .ok st' ∧
      applyGain st' s = .ok o := by
  obtain ⟨up, hu, h⟩ := bind_eq_ok.1 h
  obtain ⟨st2, h2, h⟩ := bind_eq_ok.1 h
  obtain ⟨o2, h3, h⟩ := bind_eq_ok.1 h
  cases h
  exact ⟨up, hu, h2, h3⟩

end Sys2Proof.Laws
end

