-- ==== Sys2Proof/Laws/Decode.lean ====
section
/-! SUPPORT. The byte-order helpers of the decoder and encoder, said once (30_encoding R56 to R61). -/

namespace Sys2Proof.Laws

open Sys2Proof.Machine

theorem takeU32_cons (b0 b1 b2 b3 : Byte) (rest : List Byte) :
    takeU32 (b0 :: b1 :: b2 :: b3 :: rest) = some (b3 ++ b2 ++ b1 ++ b0, rest) := rfl

/-- The four bytes of a word give it back. -/
theorem append_leBytes32 (w : U32) :
    w.extractLsb' 24 8 ++ w.extractLsb' 16 8 ++ w.extractLsb' 8 8 ++ w.extractLsb' 0 8 = w := by
  apply BitVec.eq_of_getLsbD_eq
  intro i hi
  simp only [BitVec.getLsbD_append, BitVec.getLsbD_extractLsb']
  rcases Nat.lt_or_ge i 8 with h | h
  · simp [h]
  · rcases Nat.lt_or_ge i 16 with h' | h'
    · have : ¬ i < 8 := by omega
      simp [this, show i - 8 < 8 by omega, show 8 + (i - 8) = i by omega]
    · rcases Nat.lt_or_ge i 24 with h'' | h''
      · have : ¬ i < 8 := by omega
        simp [this, show ¬ i - 8 < 8 by omega, show i - 8 - 8 < 8 by omega, show 16 + (i - 8 - 8) = i by omega]
      · have : ¬ i < 8 := by omega
        simp [this, show ¬ i - 8 < 8 by omega, show ¬ i - 8 - 8 < 8 by omega, show i - 8 - 8 - 8 < 8 by omega,
          show 24 + (i - 8 - 8 - 8) = i by omega]

/-- Reading the u32 that was written. -/
theorem takeU32_leBytes32 (w : U32) (rest : List Byte) : takeU32 (leBytes32 w ++ rest) = some (w, rest) := by
  show some (_, rest) = _
  rw [append_leBytes32]

/-- The two halves of a 64-bit word give it back. -/
theorem append_halves (w : U64) : w.extractLsb' 32 32 ++ w.extractLsb' 0 32 = w := by
  apply BitVec.eq_of_getLsbD_eq
  intro i hi
  simp only [BitVec.getLsbD_append, BitVec.getLsbD_extractLsb']
  rcases Nat.lt_or_ge i 32 with h | h
  · simp [h]
  · have : ¬ i < 32 := by omega
    simp [this, show i - 32 < 32 by omega, show 32 + (i - 32) = i by omega]

/-- Reading the f64 that was written. -/
theorem takeF64_leBytes64 (w : F64) (rest : List Byte) : takeF64 (leBytes64 w ++ rest) = some (w, rest) := by
  unfold takeF64 leBytes64
  rw [List.append_assoc, takeU32_leBytes32]
  simp only [Option.bind_eq_bind, Option.bind_some]
  rw [takeU32_leBytes32]
  simp only [Option.bind_some, append_halves, Option.pure_def]

/-- Reading the `exp` operand that was written. -/
theorem takeExp_expBytes (e : Option F64) (rest : List Byte) :
    takeExp e.isNone (expBytes e ++ rest) = some (e, rest) := by
  cases e with
  | none => rfl
  | some e =>
    show (takeF64 (leBytes64 e ++ rest) >>= _) = _
    rw [takeF64_leBytes64]
    rfl

theorem leBytes32_length (w : U32) : (leBytes32 w).length = 4 := rfl

/-- What the decoder does with a word and what follows it. -/
theorem decode_leBytes32 (h : U32) (rest : List Byte) :
    decode (leBytes32 h ++ rest) = match decodeHeader h with
      | none => .error (.illegalHeader h rest)
      | some c => match decodeOperands c rest with
        | none => .error .incomplete
        | some r => .ok r := by
  unfold decode
  exact takeU32_leBytes32 h rest ▸ rfl

end Sys2Proof.Laws
end

