-- ==== Sys2Proof/Laws/Float64.lean ====
section
/-! SUPPORT. The numeric primitives of 00_scope R14, said once: the parts of a pattern, the rounding's monotonicity and
exactness, and what the checked comparisons can answer. -/

namespace Sys2Proof.Laws

open Sys2Proof.Machine

/-! The parts of a pattern. -/

theorem fmag_lt (x : F64) : fmag x < 2 ^ 63 := Nat.mod_lt _ (by norm_num)

theorem infMag_lt : infMag < 2 ^ 63 := by norm_num [infMag]

theorem fpack_toNat {neg : Bool} {m : Nat} (h : m < 2 ^ 63) :
    (fpack neg m).toNat = m + (if neg then 2 ^ 63 else 0) := by
  unfold fpack
  rw [BitVec.toNat_ofNat, Nat.mod_eq_of_lt]
  split <;> omega

theorem fneg_iff (x : F64) : fneg x = true ↔ 2 ^ 63 ≤ x.toNat := by
  unfold fneg
  rw [BitVec.msb_eq_decide]
  simp

theorem fneg_false_iff (x : F64) : fneg x = false ↔ x.toNat < 2 ^ 63 := by
  have := fneg_iff x
  cases h : fneg x <;> simp_all

@[simp] theorem fmag_fpack {neg : Bool} {m : Nat} (h : m < 2 ^ 63) : fmag (fpack neg m) = m := by
  unfold fmag
  rw [fpack_toNat h]
  split
  · rw [Nat.add_mod_right, Nat.mod_eq_of_lt h]
  · rw [Nat.add_zero, Nat.mod_eq_of_lt h]

@[simp] theorem fneg_fpack {neg : Bool} {m : Nat} (h : m < 2 ^ 63) : fneg (fpack neg m) = neg := by
  cases neg
  · rw [fneg_false_iff, fpack_toNat h]; simpa using h
  · rw [fneg_iff, fpack_toNat h]; simp

/-- A pattern is its sign and its magnitude bits. -/
theorem fpack_parts (x : F64) : fpack (fneg x) (fmag x) = x := by
  apply BitVec.eq_of_toNat_eq
  rw [fpack_toNat (fmag_lt x)]
  have hx := x.isLt
  cases h : fneg x
  · rw [fneg_false_iff] at h
    simp only [fmag, Nat.mod_eq_of_lt h, Bool.false_eq_true, if_false, Nat.add_zero]
  · rw [fneg_iff] at h
    simp only [fmag, if_true]
    omega

theorem fmag_of_nonneg {x : F64} (h : x.toNat < 2 ^ 63) : fmag x = x.toNat := Nat.mod_eq_of_lt h

/-- What an invalid operation delivers is a NaN. -/
theorem isNaN_nanResult (op : FloatOp) (a b : F64) : isNaN (nanResult op a b) = true := by
  have h : (Config.nanChoice op a b).toNat % 2 ^ 51 < 2 ^ 51 := Nat.mod_lt _ (by norm_num)
  have hi : infMag = 9218868437227405312 := by norm_num [infMag]
  unfold isNaN nanResult
  simp only
  rw [fmag_fpack (by omega)]
  simp; omega

/-- The three kinds of pattern exclude each other and leave nothing out. -/
theorem kinds (x : F64) :
    (isFinite x = true ∧ isInf x = false ∧ isNaN x = false) ∨
    (isFinite x = false ∧ isInf x = true ∧ isNaN x = false) ∨
    (isFinite x = false ∧ isInf x = false ∧ isNaN x = true) := by
  unfold isFinite isInf isNaN
  rcases Nat.lt_trichotomy (fmag x) infMag with h | h | h
  · exact .inl ⟨by simpa using h, by simp; omega, by simp; omega⟩
  · exact .inr (.inl ⟨by simp; omega, by simpa using h, by simp; omega⟩)
  · exact .inr (.inr ⟨by simp; omega, by simp; omega, by simpa using h⟩)

/-! The constants. -/

theorem f1_toNat : f1.toNat = 1023 * 2 ^ 52 := by decide
theorem f0_toNat : f0.toNat = 0 := by decide

theorem magUnits_small {m : Nat} (h : m < 2 ^ 52) : magUnits m = m := by
  unfold magUnits
  rw [if_pos (Nat.div_eq_of_lt h), Nat.mod_eq_of_lt h]

/-- A normal magnitude by its exponent field less one and its 53-bit significand. -/
theorem magUnits_normal {e f : Nat} (h1 : 2 ^ 52 ≤ f) (h2 : f < 2 ^ 53) : magUnits (e * 2 ^ 52 + f) = f * 2 ^ e := by
  have hd : (e * 2 ^ 52 + f) / 2 ^ 52 = e + 1 := by omega
  have hm : 2 ^ 52 + (e * 2 ^ 52 + f) % 2 ^ 52 = f := by omega
  unfold magUnits
  rw [hd, if_neg (by omega), hm, Nat.add_sub_cancel]

theorem two_pow_split {a b c : Nat} (h : a + b = c) : 2 ^ a * 2 ^ b = 2 ^ c := by rw [← h, pow_add]

theorem magUnits_one : magUnits (fmag f1) = oneUnits := by
  have h : fmag f1 = 1022 * 2 ^ 52 + 2 ^ 52 := by decide
  rw [h, magUnits_normal (Nat.le_refl _) (by norm_num)]
  unfold oneUnits
  exact two_pow_split rfl

theorem magUnits_zero : magUnits 0 = 0 := by decide

theorem oneUnits_pos : 0 < oneUnits := by unfold oneUnits; positivity

/-! Rounding an integer quotient. -/

theorem le_roundDiv (n d : Nat) : n / d ≤ roundDiv n d := by
  unfold roundDiv; simp only; split <;> omega

theorem roundDiv_le (n d : Nat) : roundDiv n d ≤ n / d + 1 := by
  unfold roundDiv; simp only; split <;> omega

theorem roundDiv_le_of_le_mul {n d k : Nat} (hd : 0 < d) (h : n ≤ k * d) : roundDiv n d ≤ k := by
  rcases Nat.lt_or_ge n (k * d) with hl | hl
  · exact le_trans (roundDiv_le n d) (Nat.succ_le_of_lt ((Nat.div_lt_iff_lt_mul hd).2 hl))
  · have : n = k * d := le_antisymm h hl
    subst this
    unfold roundDiv
    simp [Nat.mul_mod_left, Nat.mul_div_cancel _ hd, hd]

theorem le_roundDiv_of_mul_le {n d k : Nat} (hd : 0 < d) (h : k * d ≤ n) : k ≤ roundDiv n d :=
  le_trans ((Nat.le_div_iff_mul_le hd).2 h) (le_roundDiv n d)

theorem roundDiv_mul {k d : Nat} (hd : 0 < d) : roundDiv (k * d) d = k :=
  le_antisymm (roundDiv_le_of_le_mul hd le_rfl) (le_roundDiv_of_mul_le hd le_rfl)

/-- Whether a quotient rounds up. -/
theorem roundDiv_eq (n d : Nat) :
    roundDiv n d = n / d + (if 2 * (n % d) < d ∨ (2 * (n % d) = d ∧ n / d % 2 = 0) then 0 else 1) := by
  unfold roundDiv; simp only; split <;> simp

/-- Rounding keeps the order of ratios. -/
theorem roundDiv_mono {a b c d : Nat} (hb : 0 < b) (hd : 0 < d) (h : a * d ≤ c * b) : roundDiv a b ≤ roundDiv c d := by
  have hq : a / b ≤ c / d := by
    rw [Nat.le_div_iff_mul_le hd]
    have h1 : a / b * b ≤ a := Nat.div_mul_le_self a b
    have h2 : a / b * d * b ≤ c * b := by
      calc a / b * d * b = a / b * b * d := by ring
        _ ≤ a * d := Nat.mul_le_mul_right d h1
        _ ≤ c * b := h
    exact Nat.le_of_mul_le_mul_right h2 hb
  rcases Nat.lt_or_ge (a / b) (c / d) with hlt | hge
  · exact le_trans (roundDiv_le a b) (le_trans hlt (le_roundDiv c d))
  · have he : c / d = a / b := le_antisymm hge hq
    rw [roundDiv_eq a b, roundDiv_eq c d, he]
    have ha := Nat.div_add_mod a b
    have hc := Nat.div_add_mod c d
    rw [he] at hc
    have hr : a % b * d ≤ c % d * b := by
      have e1 : a * d = b * (a / b) * d + a % b * d := by
        conv_lhs => rw [← ha]
        ring
      have e2 : c * b = d * (a / b) * b + c % d * b := by
        conv_lhs => rw [← hc]
        ring
      have e3 : b * (a / b) * d = d * (a / b) * b := by ring
      omega
    refine Nat.add_le_add_left ?_ _
    split
    · exact Nat.zero_le _
    · next hup =>
      rw [if_neg]
      intro hdn
      apply hup
      have hbd : 2 * (a % b) * d ≤ 2 * (c % d) * b := by
        calc 2 * (a % b) * d = 2 * (a % b * d) := by ring
          _ ≤ 2 * (c % d * b) := Nat.mul_le_mul_left 2 hr
          _ = 2 * (c % d) * b := by ring
      rcases hdn with hdn | ⟨hdn, hev⟩
      · left
        have : 2 * (a % b) * d < b * d := by
          calc 2 * (a % b) * d ≤ 2 * (c % d) * b := hbd
            _ < d * b := Nat.mul_lt_mul_of_pos_right hdn hb
            _ = b * d := Nat.mul_comm d b
        exact Nat.lt_of_mul_lt_mul_right this
      · have : 2 * (a % b) * d ≤ b * d := by
          calc 2 * (a % b) * d ≤ 2 * (c % d) * b := hbd
            _ = b * d := by rw [hdn, Nat.mul_comm]
        have hle := Nat.le_of_mul_le_mul_right this hd
        rcases Nat.lt_or_ge (2 * (a % b)) b with hl | hg
        · exact .inl hl
        · exact .inr ⟨le_antisymm hle hg, hev⟩

/-! The rounding to binary64. -/

theorem div_lt_pow_roundShift (n d : Nat) : n / d < 2 ^ (53 + roundShift n d) := by
  unfold roundShift
  refine lt_of_lt_of_le Nat.lt_log2_self (Nat.pow_le_pow_right (by norm_num) (by omega))

theorem pow_roundShift_le_div {n d : Nat} (h : 0 < roundShift n d) : 2 ^ (52 + roundShift n d) ≤ n / d := by
  unfold roundShift at h ⊢
  have hne : n / d ≠ 0 := by
    intro h0
    rw [h0] at h
    simp at h
  rw [show 52 + (Nat.log2 (n / d) - 52) = Nat.log2 (n / d) by omega]
  exact Nat.log2_self_le hne

theorem roundShift_mono {a b c d : Nat} (h : a / b ≤ c / d) : roundShift a b ≤ roundShift c d := by
  unfold roundShift
  refine Nat.sub_le_sub_right ?_ 52
  rcases Nat.eq_zero_or_pos (a / b) with h0 | h0
  · simp [h0]
  · rw [Nat.le_log2 (by omega)]
    exact le_trans (Nat.log2_self_le (by omega)) h

theorem roundDiv_shift_le {n d : Nat} (hd : 0 < d) : roundDiv n (d * 2 ^ roundShift n d) ≤ 2 ^ 53 := by
  refine roundDiv_le_of_le_mul (Nat.mul_pos hd (Nat.two_pow_pos _)) ?_
  have h := (Nat.div_lt_iff_lt_mul hd).1 (div_lt_pow_roundShift n d)
  rw [pow_add] at h
  calc n ≤ 2 ^ 53 * 2 ^ roundShift n d * d := h.le
    _ = 2 ^ 53 * (d * 2 ^ roundShift n d) := by ring

theorem le_roundDiv_shift {n d : Nat} (hd : 0 < d) (hs : 0 < roundShift n d) :
    2 ^ 52 ≤ roundDiv n (d * 2 ^ roundShift n d) := by
  refine le_roundDiv_of_mul_le (Nat.mul_pos hd (Nat.two_pow_pos _)) ?_
  have h := (Nat.le_div_iff_mul_le hd).1 (pow_roundShift_le_div hs)
  rw [pow_add] at h
  calc 2 ^ 52 * (d * 2 ^ roundShift n d) = 2 ^ 52 * 2 ^ roundShift n d * d := by ring
    _ ≤ n := h

/-- Rounding to binary64 keeps the order of ratios. -/
theorem roundMag_mono {a b c d : Nat} (hb : 0 < b) (hd : 0 < d) (h : a * d ≤ c * b) : roundMag a b ≤ roundMag c d := by
  have hq : a / b ≤ c / d := by
    rw [Nat.le_div_iff_mul_le hd]
    have h2 : a / b * d * b ≤ c * b := by
      calc a / b * d * b = a / b * b * d := by ring
        _ ≤ a * d := Nat.mul_le_mul_right d (Nat.div_mul_le_self a b)
        _ ≤ c * b := h
    exact Nat.le_of_mul_le_mul_right h2 hb
  unfold roundMag
  simp only
  refine min_le_min_left _ ?_
  rcases Nat.lt_or_ge (roundShift a b) (roundShift c d) with hlt | hge
  · have h1 := roundDiv_shift_le (n := a) hb
    have h2 := le_roundDiv_shift (n := c) hd (by omega)
    have h3 : roundShift a b * 2 ^ 52 + 2 ^ 52 ≤ roundShift c d * 2 ^ 52 := by
      calc roundShift a b * 2 ^ 52 + 2 ^ 52 = (roundShift a b + 1) * 2 ^ 52 := by ring
        _ ≤ roundShift c d * 2 ^ 52 := Nat.mul_le_mul_right _ hlt
    omega
  · have he : roundShift c d = roundShift a b := le_antisymm hge (roundShift_mono hq)
    rw [he]
    refine Nat.add_le_add_left (roundDiv_mono (Nat.mul_pos hb (Nat.two_pow_pos _)) (Nat.mul_pos hd (Nat.two_pow_pos _)) ?_) _
    calc a * (d * 2 ^ roundShift a b) = a * d * 2 ^ roundShift a b := by ring
      _ ≤ c * b * 2 ^ roundShift a b := Nat.mul_le_mul_right _ h
      _ = c * (b * 2 ^ roundShift a b) := by ring

theorem roundMag_le_inf (n d : Nat) : roundMag n d ≤ infMag := min_le_left _ _

theorem roundMag_lt (n d : Nat) : roundMag n d < 2 ^ 63 := lt_of_le_of_lt (roundMag_le_inf n d) infMag_lt

/-- A representable magnitude is rounded to itself. -/
theorem roundMag_exact {m d : Nat} (hd : 0 < d) (hm : m ≤ infMag) : roundMag (magUnits m * d) d = m := by
  unfold roundMag
  have hq : magUnits m * d / d = magUnits m := Nat.mul_div_cancel _ hd
  rcases Nat.lt_or_ge m (2 ^ 52) with hs | hs
  · have hsh : roundShift (magUnits m * d) d = 0 := by
      unfold roundShift
      rw [hq, magUnits_small hs]
      rcases Nat.eq_zero_or_pos m with h0 | h0
      · simp [h0]
      · have := (Nat.log2_lt (by omega)).2 hs
        omega
    simp only [hsh, Nat.pow_zero, Nat.mul_one, Nat.zero_mul, Nat.zero_add]
    rw [roundDiv_mul hd, magUnits_small hs, min_eq_right hm]
  · obtain ⟨e, f, h1, h2, rfl⟩ : ∃ e f, 2 ^ 52 ≤ f ∧ f < 2 ^ 53 ∧ m = e * 2 ^ 52 + f :=
      ⟨m / 2 ^ 52 - 1, m % 2 ^ 52 + 2 ^ 52, by omega, by omega, by omega⟩
    rw [magUnits_normal h1 h2] at hq ⊢
    have hl : Nat.log2 (f * 2 ^ e) = 52 + e := by
      have hpos : f * 2 ^ e ≠ 0 := Nat.mul_ne_zero (by omega) (Nat.two_pow_pos _).ne'
      apply le_antisymm
      · have : Nat.log2 (f * 2 ^ e) < 53 + e := by
          rw [Nat.log2_lt hpos, pow_add]
          exact Nat.mul_lt_mul_of_pos_right h2 (Nat.two_pow_pos _)
        omega
      · rw [Nat.le_log2 hpos, pow_add]
        exact Nat.mul_le_mul_right _ h1
    have hsh : roundShift (f * 2 ^ e * d) d = e := by
      unfold roundShift
      rw [hq, hl]
      omega
    simp only [hsh]
    rw [show f * 2 ^ e * d = f * (d * 2 ^ e) by ring, roundDiv_mul (Nat.mul_pos hd (Nat.two_pow_pos _)), min_eq_right hm]

theorem roundMag_zero (d : Nat) : roundMag 0 d = 0 := by
  simp only [roundMag, roundShift, roundDiv, Nat.zero_div, Nat.zero_mod, Nat.log2_zero, Nat.zero_sub, Nat.zero_mul,
    Nat.mul_zero, Nat.zero_add, Nat.pow_zero, Nat.mul_one]
  rcases Nat.eq_zero_or_pos d with h | h <;> simp [h]

/-- A ratio at most a representable magnitude rounds to at most it. -/
theorem roundMag_le {n d m : Nat} (hd : 0 < d) (hm : m ≤ infMag) (h : n ≤ magUnits m * d) : roundMag n d ≤ m := by
  calc roundMag n d ≤ roundMag (magUnits m * d) d := roundMag_mono hd hd (Nat.mul_le_mul_right d h)
    _ = m := roundMag_exact hd hm

/-- A ratio at least a representable magnitude rounds to at least it. -/
theorem le_roundMag {n d m : Nat} (hd : 0 < d) (hm : m ≤ infMag) (h : magUnits m * d ≤ n) : m ≤ roundMag n d := by
  calc m = roundMag (magUnits m * d) d := (roundMag_exact hd hm).symm
    _ ≤ roundMag n d := roundMag_mono hd hd (Nat.mul_le_mul_right d h)

/-- Magnitude bits and what they stand for have one order. -/
theorem magUnits_le_iff {m k : Nat} (hm : m ≤ infMag) (hk : k ≤ infMag) : magUnits m ≤ magUnits k ↔ m ≤ k := by
  have key : ∀ {m k : Nat}, m ≤ infMag → k ≤ infMag → magUnits m ≤ magUnits k → m ≤ k := by
    intro m k hm hk h
    have := roundMag_le (n := magUnits m) (d := 1) Nat.one_pos hk (by simpa using h)
    rwa [show magUnits m = magUnits m * 1 from (Nat.mul_one _).symm, roundMag_exact Nat.one_pos hm] at this
  refine ⟨key hm hk, fun h => ?_⟩
  rcases Nat.le_total (magUnits m) (magUnits k) with h' | h'
  · exact h'
  · have := key hk hm h'
    rw [le_antisymm h this]

/-! What the checked operations of R15 can answer. -/

theorem unlessNaN_ok {α : Type} {a b : F64} {r v : α} :
    unlessNaN a b r = .ok v ↔ isNaN a = false ∧ isNaN b = false ∧ r = v := by
  unfold unlessNaN
  cases ha : isNaN a <;> cases hb : isNaN b <;> simp

theorem unlessNaN_error {α : Type} {a b : F64} {r : α} {f : Fault} :
    unlessNaN a b r = .error f ↔ f = .numericNan ∧ (isNaN a = true ∨ isNaN b = true) := by
  unfold unlessNaN
  cases ha : isNaN a <;> cases hb : isNaN b <;> simp [eq_comm]

/-- A pattern up to that of infinity is no NaN. -/
theorem isNaN_of_le {x : F64} (h : x.toNat ≤ infMag) : isNaN x = false := by
  have h63 := infMag_lt
  unfold isNaN
  rw [fmag_of_nonneg (by omega)]
  simpa using h

theorem forder_of_nonneg {x : F64} (h : x.toNat < 2 ^ 63) : forder x = x.toNat := by
  unfold forder
  rw [(fneg_false_iff x).2 h, fmag_of_nonneg h]
  simp

/-- On patterns up to that of infinity the comparison is that of the patterns. -/
theorem fltOrdered_of_le {a b : F64} (ha : a.toNat ≤ infMag) (hb : b.toNat ≤ infMag) :
    fltOrdered a b = decide (a.toNat < b.toNat) := by
  have h63 := infMag_lt
  unfold fltOrdered
  rw [isNaN_of_le ha, isNaN_of_le hb, forder_of_nonneg (by omega), forder_of_nonneg (by omega)]
  simp

end Sys2Proof.Laws
end

