-- ==== Sys2Proof/Laws/Nonneg.lean ====
section
/-! SUPPORT. The numeric primitives on finite operands that are not negative, as the per-frame rules use them: each result
is one rounding of the exact one. -/

namespace Sys2Proof.Laws

open Sys2Proof.Machine

theorem nonneg_lt {x : F64} (h : x.toNat < infMag) : x.toNat < 2 ^ 63 := lt_trans h infMag_lt

theorem fneg_nonneg {x : F64} (h : x.toNat < infMag) : fneg x = false := (fneg_false_iff x).2 (nonneg_lt h)

theorem fmag_nonneg {x : F64} (h : x.toNat < infMag) : fmag x = x.toNat := fmag_of_nonneg (nonneg_lt h)

theorem isNaN_nonneg {x : F64} (h : x.toNat < infMag) : isNaN x = false := isNaN_of_le h.le

theorem isInf_nonneg {x : F64} (h : x.toNat < infMag) : isInf x = false := by
  unfold isInf
  rw [fmag_nonneg h]
  simpa using h.ne

theorem funits_nonneg {x : F64} (h : x.toNat < infMag) : funits x = (magUnits x.toNat : Int) := by
  unfold funits
  rw [fneg_nonneg h, fmag_nonneg h]
  simp

theorem fpack_false_toNat {m : Nat} (h : m < 2 ^ 63) : (fpack false m).toNat = m := by
  rw [fpack_toNat h]; simp

theorem infMag_finite_lt_f1 : f1.toNat < infMag := by decide

/-- Where a magnitude stands for nothing it is 0. -/
theorem magUnits_eq_zero {m : Nat} (hm : m ≤ infMag) : magUnits m = 0 ↔ m = 0 := by
  constructor
  · intro h
    have := (magUnits_le_iff (k := 0) hm (Nat.zero_le _)).1 (by rw [h, magUnits_zero])
    omega
  · rintro rfl; exact magUnits_zero

theorem fmul_nonneg {a b : F64} (ha : a.toNat < infMag) (hb : b.toNat < infMag) :
    (fmul a b).toNat = roundMag (magUnits a.toNat * magUnits b.toNat) oneUnits := by
  unfold fmul
  simp only [isNaN_nonneg ha, isNaN_nonneg hb, isInf_nonneg ha, isInf_nonneg hb, fneg_nonneg ha, fneg_nonneg hb,
    fmag_nonneg ha, fmag_nonneg hb, Bool.or_self, Bool.false_eq_true, if_false, bne_self_eq_false]
  exact fpack_false_toNat (roundMag_lt _ _)

theorem fadd_nonneg {a b : F64} (ha : a.toNat < infMag) (hb : b.toNat < infMag) :
    (fadd a b).toNat = roundMag (magUnits a.toNat + magUnits b.toNat) 1 := by
  unfold fadd faddFinite
  simp only [isNaN_nonneg ha, isNaN_nonneg hb, isInf_nonneg ha, isInf_nonneg hb, fneg_nonneg ha, fneg_nonneg hb,
    funits_nonneg ha, funits_nonneg hb, Bool.or_self, Bool.false_eq_true, if_false, Bool.and_self]
  split
  · next h =>
    have h0 : magUnits a.toNat + magUnits b.toNat = 0 := by omega
    rw [h0, roundMag_zero]
    exact fpack_false_toNat (by norm_num)
  · have hn : ¬ ((magUnits a.toNat : Int) + (magUnits b.toNat : Int) < 0) := by omega
    have hz : ((magUnits a.toNat : Int) + (magUnits b.toNat : Int)).natAbs = magUnits a.toNat + magUnits b.toNat := by
      omega
    rw [hz, decide_eq_false hn]
    exact fpack_false_toNat (roundMag_lt _ _)

theorem fdiv_nonneg {a b : F64} (ha : a.toNat < infMag) (hb : b.toNat < infMag) (h0 : 0 < b.toNat) :
    (fdiv a b).toNat = roundMag (magUnits a.toNat * oneUnits) (magUnits b.toNat) := by
  have hz : isZero b = false := by
    unfold isZero
    rw [fmag_nonneg hb]
    simpa using h0.ne'
  unfold fdiv
  simp only [isNaN_nonneg ha, isNaN_nonneg hb, isInf_nonneg ha, isInf_nonneg hb, fneg_nonneg ha, fneg_nonneg hb,
    fmag_nonneg ha, fmag_nonneg hb, hz, Bool.or_self, Bool.false_eq_true, if_false, bne_self_eq_false]
  exact fpack_false_toNat (roundMag_lt _ _)

theorem toF_nonneg (n : Nat) : (toF n).toNat = roundMag (n * oneUnits) 1 := by
  unfold toF
  rw [decide_eq_false (by omega), Int.natAbs_natCast]
  exact fpack_false_toNat (roundMag_lt _ _)

theorem fflip_parts {x : F64} : fneg (fflip x) = !fneg x ∧ fmag (fflip x) = fmag x :=
  ⟨fneg_fpack (fmag_lt x), fmag_fpack (fmag_lt x)⟩

/-- A difference that is not negative. -/
theorem fsub_nonneg {a b : F64} (ha : a.toNat < infMag) (hb : b.toNat ≤ a.toNat) :
    (fsub a b).toNat = roundMag (magUnits a.toNat - magUnits b.toNat) 1 := by
  have hb' : b.toNat < infMag := lt_of_le_of_lt hb ha
  have hle := (magUnits_le_iff hb'.le ha.le).2 hb
  have hfb : funits (fflip b) = -(magUnits b.toNat : Int) := by
    unfold funits
    rw [fflip_parts.1, fflip_parts.2, fneg_nonneg hb', fmag_nonneg hb']
    simp
  unfold fsub faddFinite
  simp only [isNaN_nonneg ha, isNaN_nonneg hb', isInf_nonneg ha, isInf_nonneg hb', fneg_nonneg ha,
    funits_nonneg ha, hfb, Bool.or_self, Bool.false_eq_true, if_false, Bool.false_and]
  split
  · next h =>
    have h0 : magUnits a.toNat - magUnits b.toNat = 0 := by omega
    rw [h0, roundMag_zero]
    exact fpack_false_toNat (by norm_num)
  · have hn : ¬ ((magUnits a.toNat : Int) + -(magUnits b.toNat : Int) < 0) := by omega
    have hz : ((magUnits a.toNat : Int) + -(magUnits b.toNat : Int)).natAbs = magUnits a.toNat - magUnits b.toNat := by
      omega
    rw [hz, decide_eq_false hn]
    exact fpack_false_toNat (roundMag_lt _ _)

theorem oneUnits_split {a b : Nat} (h : a + b = 1074) : 2 ^ a * 2 ^ b = oneUnits := by
  unfold oneUnits
  exact two_pow_split h

/-- A whole number below 2^53 keeps its value (R14). -/
theorem toF_units {n : Nat} (h : n < 2 ^ 53) : magUnits (toF n).toNat = n * oneUnits := by
  rw [toF_nonneg]
  rcases Nat.eq_zero_or_pos n with rfl | hpos
  · simp [roundMag_zero, magUnits_zero]
  · obtain ⟨k, hk⟩ : ∃ k, Nat.log2 n = k := ⟨_, rfl⟩
    have hlo : 2 ^ k ≤ n := by rw [← hk]; exact Nat.log2_self_le (by omega)
    have hhi : n < 2 ^ (k + 1) := by rw [← hk]; exact Nat.lt_log2_self
    have hk53 : k < 53 := by rw [← hk]; exact (Nat.log2_lt (by omega)).2 h
    have hone : 2 ^ (52 - k) * 2 ^ (1022 + k) = oneUnits := oneUnits_split (by omega)
    have hf1 : 2 ^ 52 ≤ n * 2 ^ (52 - k) := by
      calc 2 ^ 52 = 2 ^ k * 2 ^ (52 - k) := (two_pow_split (by omega)).symm
        _ ≤ n * 2 ^ (52 - k) := Nat.mul_le_mul_right _ hlo
    have hf2 : n * 2 ^ (52 - k) < 2 ^ 53 := by
      calc n * 2 ^ (52 - k) < 2 ^ (k + 1) * 2 ^ (52 - k) := Nat.mul_lt_mul_of_pos_right hhi (Nat.two_pow_pos _)
        _ = 2 ^ 53 := two_pow_split (by omega)
    have hu : magUnits ((1022 + k) * 2 ^ 52 + n * 2 ^ (52 - k)) = n * oneUnits := by
      rw [magUnits_normal hf1 hf2, ← hone, Nat.mul_assoc]
    have hin : (1022 + k) * 2 ^ 52 + n * 2 ^ (52 - k) ≤ infMag := by
      have h1 : (1022 + k) * 2 ^ 52 + 2 ^ 53 ≤ 1076 * 2 ^ 52 := by clear hu hf1 hf2 hone hlo hhi; omega
      have h2 : 1076 * 2 ^ 52 ≤ infMag := by norm_num [infMag]
      exact le_trans (Nat.add_le_add_left hf2.le _) (le_trans h1 h2)
    rw [← hu]
    have := roundMag_exact (d := 1) Nat.one_pos hin
    rw [Nat.mul_one] at this
    rw [this]

end Sys2Proof.Laws
end

