-- ==== Sys2Proof/Laws/PerInstr.lean ====
section
/-! SUPPORT. Statements made once per instruction. -/

namespace Sys2Proof.Laws.EncodeLength

/-- The encoder writes as many bytes as the length column of 30_encoding R60 says. -/
def Statement (i : Instr) : Prop := (encode i).length = commandLength i

theorem initC (a r t : U32) (e : Option F64) : Statement (.initC a r t e) := by cases e <;> rfl
theorem initG (a h r t : U32) (e : Option F64) : Statement (.initG a h r t e) := by cases e <;> rfl
theorem feed (data : List Byte) : Statement (.feed data) := by
  simp [Statement, encode, commandLength, leBytes32]; omega
theorem getAttack : Statement .getAttack := rfl
theorem getRelease : Statement .getRelease := rfl
theorem getHold : Statement .getHold := rfl
theorem getThreshold : Statement .getThreshold := rfl
theorem setAttack (v : U32) : Statement (.setAttack v) := rfl
theorem setRelease (v : U32) : Statement (.setRelease v) := rfl
theorem setHold (v : U32) : Statement (.setHold v) := rfl
theorem setThreshold (v : U32) : Statement (.setThreshold v) := rfl

end Sys2Proof.Laws.EncodeLength
end

