-- ==== Sys2Proof/Tests/Slice0.lean ====
section
/-! SUPPORT. The model's own tests. Expected values come from spec/95_test_vectors.md (named V…, P…) or the worked examples
of the rules (R…). The last part shows, for every statement of Obligations.lean that has hypotheses, a state and operands
that meet them. -/

namespace Sys2Proof.Tests

/- One theorem after the other: elaborated all at once, the kernel's evaluations below wait for each other on a thread each,
and the stacks of some forty threads fill the memory the check allows. -/
set_option Elab.async false

open Sys2Proof.Machine Sys2Proof.Safety

/-! Helpers. -/

/-- A Compressor after `INIT.C 4, 8, 1000`. -/
def comp0 : Regs := construct .comp 4 8 0 1000 config.expDefault
/-- A Gate after `INIT.G 2, 3, 4, 1000`. -/
def gate0 : Regs := construct .gate 2 4 3 1000 config.expDefault
/-- A machine with these registers and nothing pending. -/
def mach (st : Regs) : State := { regs := st, port := [], response := [] }
/-- The response of an outcome. -/
def responseOf : Host.Outcome State Fault Refusal → Option (List Byte)
  | .next s => some s.response
  | .fault _ => none
  | .refused _ => none
/-- The registers of an outcome. -/
def regsOf : Host.Outcome State Fault Refusal → Option Regs
  | .next s => some s.regs
  | .fault _ => none
  | .refused _ => none
/-- The registers and output of a frame. -/
def frameOf : Except Fault (Regs × Int) → Option (Regs × Int)
  | .ok r => some r
  | .error _ => none
/-- The response to the command at the port. -/
def answer (st : Regs) (bytes : List Byte) : Option (List Byte) :=
  responseOf (step { regs := st, port := bytes, response := [] })
/-- What a checked operation answers. -/
def okOf {α : Type} : Except Fault α → Option α
  | .ok v => some v
  | .error _ => none

/-! Well-formedness: the one check, and an ill-formed term it refuses. -/

theorem test_wellFormed_refuses_a_feed_longer_than_its_length_field :
    ∀ data : List Byte, data.length = 2 ^ 32 → wellFormed (.feed data) = false :=
  fun data h => decide_eq_false (by rw [h]; decide)

theorem test_wellFormed_refuses_a_feed_of_two_to_the_32_bytes :
    wellFormed (.feed (List.replicate (2 ^ 32) 0)) = false :=
  test_wellFormed_refuses_a_feed_longer_than_its_length_field _ List.length_replicate

theorem test_wellFormed_accepts_an_empty_feed : wellFormed (.feed []) = true := by decide

/-! Decoding: the words of V45, written out byte by byte from R57 to R61. -/

theorem test_decode_initC : decode [0x01, 0, 0, 0x01, 4, 0, 0, 0, 8, 0, 0, 0, 0xE8, 3, 0, 0] =
    .ok (.initC 4 8 1000 none, []) := by rfl
theorem test_decode_initC_exp : decode [0, 0, 0, 0x01, 4, 0, 0, 0, 8, 0, 0, 0, 0xE8, 3, 0, 0, 0, 0, 0, 0, 0, 0, 0xF0, 0x3F] =
    .ok (.initC 4 8 1000 (some 0x3FF0000000000000#64), []) := by rfl
theorem test_decode_initG : decode [0x01, 0, 0, 0x02, 0x64, 0, 0, 0, 0x32, 0, 0, 0, 0xC8, 0, 0, 0, 0xE8, 3, 0, 0] =
    .ok (.initG 100 50 200 1000 none, []) := by rfl
theorem test_decode_initG_exp :
    decode [0, 0, 0, 0x02, 2, 0, 0, 0, 3, 0, 0, 0, 4, 0, 0, 0, 0xE8, 3, 0, 0, 0, 0, 0, 0, 0, 0, 0xF0, 0x3F] =
    .ok (.initG 2 3 4 1000 (some 0x3FF0000000000000#64), []) := by rfl
theorem test_decode_feed : decode [0, 0, 0, 0x10, 4, 0, 0, 0, 0xD0, 7, 0xD0, 7, 0xAA] =
    .ok (.feed [0xD0, 7, 0xD0, 7], [0xAA]) := by rfl
theorem test_decode_getAttack : decode [0, 0, 0, 0x20] = .ok (.getAttack, []) := by rfl
theorem test_decode_getRelease : decode [0, 0, 1, 0x20] = .ok (.getRelease, []) := by rfl
theorem test_decode_getHold : decode [0, 0, 2, 0x20] = .ok (.getHold, []) := by rfl
theorem test_decode_getThreshold : decode [0, 0, 3, 0x20] = .ok (.getThreshold, []) := by rfl
theorem test_decode_setAttack : decode [0, 0, 0, 0x21, 0xFF, 0xFF, 0xFF, 0xFF] = .ok (.setAttack 0xFFFFFFFF#32, []) := by
  rfl
theorem test_decode_setRelease : decode [0, 0, 1, 0x21, 4, 0, 0, 0] = .ok (.setRelease 4, []) := by rfl
theorem test_decode_setHold : decode [0, 0, 2, 0x21, 5, 0, 0, 0] = .ok (.setHold 5, []) := by rfl
theorem test_decode_setThreshold : decode [0, 0, 3, 0x21, 0, 1, 0, 0] = .ok (.setThreshold 256, []) := by rfl

/-- V60.4 to V60.10. -/
theorem test_reserved_headers_are_illegal :
    [0x10000001#32, 0x10000002#32, 0x20040000#32, 0x30000000#32, 0x01010000#32, 0x00000000#32, 0x20000001#32].map
      decodeHeader = [none, none, none, none, none, none, none] := by decide

theorem test_table_word_initC : decodeTableWord 32 0x01000000 = some (.initC 0 0 0 (some 0)) := by rfl
theorem test_table_word_setHold : decodeTableWord 32 0x21020000 = some (.setHold 0) := by rfl

/-! Arithmetic: 93 G2, G3, V40, V41, V45.21. -/

theorem test_one_minus_exp_default : fsub f1 config.expDefault = 0x3FB9999999999998#64 := by decide +kernel
theorem test_envelope_of_silence : nextEnvelope config.expDefault 0x409C200000000000#64 0 = 0x40667FFFFFFFFFFF#64 := by
  decide +kernel
theorem test_envelope_of_the_least_sample : nextEnvelope config.expDefault 0 0x8000#16 = 0x40DCCCCCCCCCCCCD#64 := by
  decide +kernel
theorem test_envelope_with_exp_half :
    nextEnvelope 0x3FE0000000000000#64 (toF 100) (BitVec.ofInt 16 (-300)) = 0x4069000000000000#64 := by decide +kernel
theorem test_rampQ_rounds_the_largest_count :
    rampQ (2 ^ 64 - 1) 0xFFFFFFFF#32 = 0x41F0000000100000#64 := by decide +kernel
theorem test_rampQ_tenth : rampQ 10 100 = 0x3FB999999999999A#64 := by decide +kernel
theorem test_rampDown_last_place :
    okOf (rampDown { comp0 with ceilGain := 0x3FE6666666666666#64 } 0 4) = some 0x3FD3333333333334#64 := by
  decide +kernel
theorem test_rampUp_clamps : okOf (rampUp { comp0 with floorGain := 0x3FD0000000000000#64 } 8 8) = some f1 := by
  decide +kernel
theorem test_applyGain_truncates_toward_zero :
    okOf (applyGain { comp0 with gain := 0x3FE0000000000000#64 } (BitVec.ofInt 16 (-3))) = some (-1) := by decide +kernel
theorem test_applyGain_below_the_product :
    okOf (applyGain { comp0 with gain := 0x3FEFF7CED916872B#64 } 32767) = some 32734 := by decide +kernel
theorem test_expValid :
    [0x3FF0000000000000#64, 0x3FF0000000000001#64, 0x0000000000000001#64, 0x0000000000000000#64, 0x8000000000000000#64,
     0xBFE0000000000000#64, 0x3FF8000000000000#64, 0x7FF0000000000000#64, 0x7FF8000000000000#64,
     0x3FECCCCCCCCCCCCD#64].map expValid =
    [true, false, true, false, false, false, false, false, false, true] := by decide +kernel
theorem test_codec_bytes :
    [encodeFrame 180, encodeFrame (-1), encodeFrame (-32768), encodeFrame (-2500), encodeFrame 7500] =
    [[0xB4, 0x00], [0xFF, 0xFF], [0x00, 0x80], [0x3C, 0xF6], [0x4C, 0x1D]] := by decide
theorem test_codec_samples :
    [sext16 (decodeFrame 0xD0 0x07), sext16 (decodeFrame 0x00 0x80), sext16 (decodeFrame 0xF0 0xD8)] =
    [2000, -32768, -10000] := by decide

/-! Frames: the worked examples of R84 and R93, V42.3 frame 4, V43.2 frame 1. -/

theorem test_comp_frame_of_R84 :
    frameOf (compStep { comp0 with gain := 0x3FC0000000000000#64, envelope := toF 9990, ceilGain := 0x3FC0000000000000#64,
                                   frameIndex := 3, phaseStart := 2 } 10000) =
    some ({ comp0 with gain := 0x3FC0000000000000#64, envelope := toF 9999, floorGain := 0x3FC0000000000000#64,
                       ceilGain := 0x3FEC000000000000#64, frameIndex := 4, phaseStart := 0, phaseEnd := 4 }, 1250) := by
  decide +kernel

/-- V42.3, frame 4: a DOWN entry during the first UP phase jumps to 1.0. -/
theorem test_comp_first_down_entry_jumps :
    (frameOf (compStep { comp0 with gain := 0x3FD0000000000000#64, ceilGain := f1, frameIndex := 3, phaseStart := 1 }
      10000)).map (fun p => (p.1.gain, p.1.floorGain, p.1.ceilGain, p.2)) =
    some (f1, 0x3FD0000000000000#64, f0, 10000) := by decide +kernel

/-- R93's worked example: e = 4, hold 3, release 4. -/
theorem test_gate_ramp_after_hold :
    okOf (gateDownGain { gate0 with phaseEnd := 7, frameIndex := 11 }) = some 0x3FE8000000000000#64 := by decide +kernel

/-- V43.2, frame 7: held (e = 2). -/
theorem test_gate_holds :
    (frameOf (gateStep { gate0 with envelope := 0x4033FF7CED916870#64, gain := f1, floorGain := f1, frameIndex := 6,
                                    phaseEnd := 5 } 0)).map (fun p => (p.1.gain, p.1.envelope, p.1.phaseEnd)) =
    some (f1, 0x3FFFFF2E48E8A718#64, 5) := by decide +kernel

/-! Commands, each one step on the bytes the host sends. -/

/-- V45.1. -/
theorem test_step_initC :
    regsOf (step { State.reset with port := [1, 0, 0, 1, 4, 0, 0, 0, 8, 0, 0, 0, 0xE8, 3, 0, 0] }) = some comp0 := by
  decide +kernel
/-- V45.18: a construction on a READY instance discards it. -/
theorem test_step_initG_discards :
    regsOf (step { mach { comp0 with frameIndex := 8, phaseEnd := 8 } with
      port := [1, 0, 0, 2, 2, 0, 0, 0, 3, 0, 0, 0, 4, 0, 0, 0, 0xE8, 3, 0, 0] }) = some gate0 := by decide +kernel
/-- V60.12: a construction with a NaN keeps the instance. -/
theorem test_step_initC_nan :
    step { mach comp0 with port := encode (.initC 1 2 3 (some 0x7FF8000000000000#64)) } =
    .next { mach comp0 with response := [0x02] } := by rfl
/-- V45.5, P1: two frames of a new Gate. -/
theorem test_step_feed :
    answer (construct .gate 100 200 50 1000 config.expDefault) [0, 0, 0, 0x10, 4, 0, 0, 0, 0xD0, 7, 0xD0, 7] =
    some [0x00, 0x00, 0x00, 0x14, 0x00] := by decide +kernel
/-- V60.11. -/
theorem test_step_feed_odd :
    answer comp0 [0, 0, 0, 0x10, 3, 0, 0, 0, 0x10, 0x27, 0] = some [0x01] := by decide +kernel
/-- V60.2: NOT_INITIALISED outranks the length. -/
theorem test_step_feed_before_construction :
    answer Regs.powerOn [0, 0, 0, 0x10, 3, 0, 0, 0, 0x10, 0x27, 0] = some [0x04] := by decide +kernel
/-- V45.19. -/
theorem test_feed_past_the_counter :
    exec (.feed [0, 0, 0, 0]) (mach { comp0 with frameIndex := 0xFFFFFFFFFFFFFFFE#64 }) = .refused .frameCounterOverflow := by
  rfl
/-- V45.20. -/
theorem test_feed_up_to_the_counter :
    (regsOf (exec (.feed [0, 0]) (mach { comp0 with frameIndex := 0xFFFFFFFFFFFFFFFE#64 }))).map (·.frameIndex) =
    some 0xFFFFFFFFFFFFFFFF#64 := by decide +kernel
/-- V45.7 to V45.11. -/
theorem test_step_gets :
    [answer comp0 [0, 0, 0, 0x20], answer comp0 [0, 0, 1, 0x20], answer comp0 [0, 0, 3, 0x20], answer comp0 [0, 0, 2, 0x20],
     answer gate0 [0, 0, 2, 0x20]] =
    [some [0, 4, 0, 0, 0], some [0, 8, 0, 0, 0], some [0, 0xE8, 3, 0, 0], some [3], some [0, 3, 0, 0, 0]] := by
  decide +kernel
/-- V45.12, V45.13, V45.14, V45.16. -/
theorem test_exec_sets :
    [regsOf (exec (.setAttack 0xFFFFFFFF#32) (mach comp0)), regsOf (exec (.setRelease 0) (mach comp0)),
     regsOf (exec (.setThreshold 0) (mach comp0)), regsOf (exec (.setHold 0) (mach gate0))] =
    [some { comp0 with attack := 0xFFFFFFFF#32 }, some { comp0 with release := 0 }, some { comp0 with threshold := 0 },
     some { gate0 with hold := 0 }] := by decide +kernel
/-- V45.15. -/
theorem test_exec_setHold_on_comp : exec (.setHold 5) (mach comp0) = .next { mach comp0 with response := [0x03] } := by rfl
/-- V60.5: an illegal header reads four bytes. -/
theorem test_step_illegal_header :
    step { mach comp0 with port := [2, 0, 0, 0x10, 0, 0, 0, 0x20] } =
    .next { mach comp0 with port := [0, 0, 0, 0x20], response := [0x03] } := by rfl
/-- What the host asks of a table row: GET.ATTACK as the first command after power-on (V70.1). -/
theorem test_first_command_after_power_on :
    responseOf (step (State.reset.withFetchWord 32 0x20000000)) = some [0x04] := by decide +kernel

/-! WITNESSES: for every statement with hypotheses, a state and operands that meet all of them; where a statement has
several clauses, one for each, at a boundary of its range. -/

/-- Whether an outcome is this next state. -/
def isNext (o : Host.Outcome State Fault Refusal) (t : State) : Bool :=
  match o with
  | .next s => decide (s = t)
  | .fault _ => false
  | .refused _ => false

theorem isNext_sound {o : Host.Outcome State Fault Refusal} {t : State} (h : isNext o t = true) : o = .next t := by
  cases o with
  | next s => simp only [isNext, decide_eq_true_eq] at h; rw [h]
  | fault f => cases h
  | refused r => cases h

theorem okOf_sound {α : Type} {x : Except Fault α} {v : α} (h : okOf x = some v) : x = .ok v := by
  cases x with
  | ok a => simp only [okOf, Option.some.injEq] at h; rw [h]
  | error e => cases h

theorem frameOf_sound {x : Except Fault (Regs × Int)} {v : Regs × Int} (h : frameOf x = some v) : x = .ok v := by
  cases x with
  | ok a => simp only [frameOf, Option.some.injEq] at h; rw [h]
  | error e => cases h

/-- `comp0` after one silent frame. -/
def comp1 : Regs := { comp0 with gain := f0, ceilGain := f1, frameIndex := 1, phaseStart := 1 }
/-- `comp1` after one more. -/
def comp2 : Regs := { comp1 with gain := 0x3FC0000000000000#64, frameIndex := 2 }

theorem legal_comp0 : Legal comp0 :=
  ⟨by decide, by decide, by decide, by decide, by decide, by decide, by decide, by decide, by decide, by decide⟩
theorem legal_gate0 : Legal gate0 :=
  ⟨by decide, by decide, by decide, by decide, by decide, by decide, by decide, by decide, by decide, by decide⟩
theorem legal_comp1 : Legal comp1 :=
  ⟨by decide, by decide, by decide, by decide, by decide, by decide, by decide, by decide, by decide, by decide⟩
/-- A legal Gate in its DOWN phase, one frame below the counter's end. -/
def gateLate : Regs := { gate0 with gain := f1, floorGain := f1, frameIndex := 0xFFFFFFFFFFFFFFFE#64, phaseEnd := 5 }
theorem legal_gateLate : Legal gateLate :=
  ⟨by decide, by decide, by decide, by decide, by decide, by decide, by decide, by decide, by decide, by decide⟩

theorem value_pos_of_funits {x : F64} (h : 0 < funits x) : 0 < value x :=
  div_pos (Int.cast_pos.mpr h) (pow_pos two_pos 1074)

theorem value_pos_funits {x : F64} (h : 0 < value x) : 0 < funits x := by
  have hp : (0 : ℚ) < 2 ^ 1074 := pow_pos two_pos 1074
  rw [value, div_pos_iff_of_pos_right hp] at h
  exact Int.cast_pos.mp h

theorem cast_oneUnits : ((oneUnits : Int) : ℚ) = 2 ^ 1074 :=
  (Int.cast_natCast oneUnits).trans (Nat.cast_pow 2 1074)

theorem value_le_one_iff {x : F64} : value x ≤ 1 ↔ funits x ≤ (oneUnits : Int) := by
  have hp : (0 : ℚ) < 2 ^ 1074 := pow_pos two_pos 1074
  rw [value, div_le_one hp, ← cast_oneUnits, Int.cast_le]

/-- The condition of R105 on a value, checked on the units of a pattern. -/
def unitsValid (e : F64) : Bool := isFinite e && decide (0 < funits e) && decide (funits e ≤ (oneUnits : Int))

theorem unitsValid_iff {e : F64} : unitsValid e = true ↔ isFinite e = true ∧ 0 < value e ∧ value e ≤ 1 := by
  simp only [unitsValid, Bool.and_eq_true, decide_eq_true_eq, and_assoc, value_le_one_iff]
  exact and_congr_right fun _ => and_congr_left fun _ => ⟨value_pos_of_funits, value_pos_funits⟩

theorem witness_InitConstructsTheInstance :
    ∀ e ∈ [0x3FECCCCCCCCCCCCD#64, f1, 0x0000000000000001#64],
      isFinite e = true ∧ 0 < value e ∧ value e ≤ 1 :=
  have key : [0x3FECCCCCCCCCCCCD#64, f1, 0x0000000000000001#64].all unitsValid = true := by decide +kernel
  fun e h => unitsValid_iff.mp (List.all_eq_true.mp key e h)

theorem witness_InitRejectsABadExp :
    ∀ e ∈ [0x0000000000000000#64, 0x3FF0000000000001#64, 0x7FF0000000000000#64, 0x7FF8000000000000#64],
      ¬(isFinite e = true ∧ 0 < value e ∧ value e ≤ 1) :=
  have key : [0x0000000000000000#64, 0x3FF0000000000001#64, 0x7FF0000000000000#64, 0x7FF8000000000000#64].all
      (fun e => !unitsValid e) = true := by decide +kernel
  fun e h w => by
    have hk := List.all_eq_true.mp key e h
    rw [unitsValid_iff.mpr w] at hk
    cases hk

theorem witness_InitKeepsNothingOrEverything :
    (constructs (.initC 4 8 1000 none) = true ∧
      exec (.initC 4 8 1000 none) (mach gate0) = .next { mach comp0 with response := [0x00] }) ∧
    (constructs (.initG 4 8 1000 7 (some 0)) = true ∧
      exec (.initG 4 8 1000 7 (some 0)) (mach comp0) = .next { mach comp0 with response := [0x02] }) :=
  ⟨⟨rfl, isNext_sound (by decide +kernel)⟩, rfl, isNext_sound (by decide +kernel)⟩

theorem witness_DecodeOfEncodeIsTheCommand : wellFormed (.feed [1, 2, 3]) = true := by decide

theorem witness_DecodedBytesAreTheEncoding : decode [0, 0, 1, 0x21, 4, 0, 0, 0, 9] = .ok (.setRelease 4, [9]) := by rfl

theorem witness_HeadersDecodeAsListed : 0x10000001#32 ∉ legalHeaders := by decide

theorem witness_StepRunsTheDecodedCommand :
    decode ({ mach comp0 with port := [0, 0, 0, 0x20, 7] } : State).port = .ok (.getAttack, [7]) := by rfl

theorem witness_IllegalHeaderChangesNoState :
    0x20040000#32 ∉ legalHeaders ∧
    ({ mach comp0 with port := [0, 0, 4, 0x20, 9] } : State).port = leBytes32 0x20040000#32 ++ [9] := by decide

theorem witness_IdleBlockChangesNothing : (mach comp0).port = [] := rfl

theorem witness_CutOffCommandIsRefused :
    wellFormed (.setAttack 5) = true ∧ 7 < (encode (.setAttack 5)).length ∧
    ({ mach comp0 with port := [0, 0, 0, 0x21, 5, 0, 0] } : State).port = (encode (.setAttack 5)).take 7 := by decide

theorem witness_NothingRunsBeforeConstruction :
    constructs (.feed [0]) = false ∧ constructs .getHold = false ∧ State.reset.regs.mode = .uninit := by decide

theorem witness_HoldIsIllegalOnACompressor : (mach comp0).regs.mode = .ready ∧ (mach comp0).regs.variant = .comp := by
  decide

theorem witness_OddFeedIsRejectedWhole :
    ([0, 0, 0] : List Byte).length % 2 = 1 ∧ (mach gate0).regs.mode = .ready ∧ State.reset.regs.mode = .uninit := by decide

theorem witness_CounterOverflowIsRefused :
    (mach gateLate).regs.mode = .ready ∧ ([0, 0, 0, 0] : List Byte).length % 2 = 0 ∧
    2 ^ 64 - 1 < (mach gateLate).regs.frameIndex.toNat + ([0, 0, 0, 0] : List Byte).length / 2 := by decide

theorem witness_ErrorsLeaveNoTrace :
    ({ mach comp0 with port := [0, 0, 2, 0x20] } : State).port ≠ [] ∧
    step { mach comp0 with port := [0, 0, 2, 0x20] } = .next { mach comp0 with response := [0x03] } :=
  ⟨by decide, isNext_sound (by decide +kernel)⟩

theorem witness_GetAnswersItsRegister_and_SetWritesOnlyItsRegister :
    (mach comp0).regs.mode = .ready ∧ (mach comp0).regs.variant = .comp ∧ (mach gate0).regs.mode = .ready ∧
    (mach gate0).regs.variant = .gate ∧ State.reset.regs.mode = .uninit := by decide

theorem witness_EachFieldHasItsWriters :
    constructs (.setHold 9) = false ∧
    exec (.setHold 9) (mach gate0) = .next { mach { gate0 with hold := 9 } with response := [0x00] } ∧
    constructs (.feed [0, 0]) = false ∧
    exec (.feed [0, 0]) (mach comp0) = .next { mach comp1 with response := [0, 0, 0] } :=
  ⟨rfl, isNext_sound (by decide +kernel), rfl, isNext_sound (by decide +kernel)⟩

theorem witness_FeedRunsEveryFrame :
    ((mach comp0).regs.mode = .ready ∧ Legal (mach comp0).regs ∧
      (mach comp0).regs.frameIndex.toNat + ([0, 0] : List Byte).length / 2 ≤ 2 ^ 64 - 1) ∧
    ((mach gateLate).regs.mode = .ready ∧ Legal (mach gateLate).regs ∧ ([0, 0] : List Byte).length % 2 = 0 ∧
      (mach gateLate).regs.frameIndex.toNat + ([0, 0] : List Byte).length / 2 = 2 ^ 64 - 1) :=
  ⟨⟨rfl, legal_comp0, by decide⟩, rfl, legal_gateLate, by decide, by decide⟩

theorem witness_FrameIndexCountsFrames :
    exec (.feed [0, 0]) (mach comp0) = .next { mach comp1 with response := [0, 0, 0] } ∧
    ({ mach comp1 with response := [0, 0, 0] } : State).response = 0x00#8 :: [0, 0] :=
  ⟨isNext_sound (by decide +kernel), rfl⟩

theorem witness_FrameLoopIsTheCursorLoop_and_InPlace :
    ([1, 2, 3, 4] : List Byte).length % 2 = 0 ∧ ([9, 9, 9, 9] : List Byte).length = ([1, 2, 3, 4] : List Byte).length := by
  decide

theorem witness_TwoFeedsAreOneFeed :
    (mach comp0).regs.mode = .ready ∧
    exec (.feed [0, 0]) (mach comp0) = .next { mach comp1 with response := [0, 0, 0] } ∧
    exec (.feed [0, 0]) { mach comp1 with response := [0, 0, 0] } = .next { mach comp2 with response := [0, 0, 0] } :=
  ⟨rfl, isNext_sound (by decide +kernel), isNext_sound (by decide +kernel)⟩

theorem witness_OutputIgnoresLaterFrames :
    frameLoop comp0 ([0, 0] ++ [0, 0]) = .ok (comp2, [0, 0, 0, 0]) ∧ frameLoop comp0 ([0, 0] ++ []) = .ok (comp1, [0, 0]) :=
  ⟨okOf_sound (by decide +kernel), okOf_sound (by decide +kernel)⟩

theorem witness_SilenceGivesSilence :
    (mach gateLate).regs.mode = .ready ∧ Legal (mach gateLate).regs ∧
    (mach gateLate).regs.frameIndex.toNat + 1 ≤ 2 ^ 64 - 1 := ⟨rfl, legal_gateLate, by decide⟩

theorem witness_UnitGain_and_OutputNeverExceeds :
    comp0.gain = 0x3FF0000000000000#64 ∧ InUnit comp0.gain ∧ InUnit comp1.gain := by decide

theorem witness_UnitExpTracksTheSample :
    (0 : F64).toNat ≤ envelopeCap.toNat ∧ envelopeCap.toNat ≤ envelopeCap.toNat := by decide

theorem witness_Ramps :
    (4 : U32) ≠ 0 ∧ InUnit comp1.floorGain ∧ InUnit comp1.ceilGain ∧
    rampUp comp1 0 8 = .ok f0 ∧ rampUp comp1 8 8 = .ok f1 ∧
    rampDown comp0 0 4 = .ok f1 ∧ rampDown comp0 4 4 = .ok f0 ∧ rampDown comp1 0 8 = .ok f0 ∧ rampDown comp1 8 8 = .ok f0 :=
  ⟨by decide, by decide, by decide, okOf_sound (by decide +kernel), okOf_sound (by decide +kernel),
    okOf_sound (by decide +kernel), okOf_sound (by decide +kernel), okOf_sound (by decide +kernel),
    okOf_sound (by decide +kernel)⟩

theorem witness_PhaseEntriesTakeSnapshots :
    comp0.phaseStart = 0 ∧ comp1.phaseStart ≠ 0 ∧ comp1.phaseEnd = 0 ∧ comp1.frameIndex ≠ 0 ∧
    gateLate.phaseEnd ≠ 0 ∧ gateLate.phaseStart = 0 ∧ gateLate.frameIndex ≠ 0 := by decide

theorem witness_TrackingKeepsTheExtremes :
    InUnit comp1.gain ∧ InUnit comp1.ceilGain ∧ InUnit comp1.floorGain ∧ InUnit gateLate.gain := by decide

theorem witness_CompressorSelectAtItsExtremes :
    InUnit comp1.gain ∧ comp1.envelope.toNat ≤ envelopeCap.toNat ∧ comp1.gain = 0x0000000000000000#64 ∧
    comp1.threshold ≠ 0 ∧ ({ comp1 with threshold := 0 } : Regs).threshold = 0 := by decide

theorem witness_GateOpensStrictlyAboveTheThreshold :
    isFinite (toF 1000) = true ∧ isFinite (toF 1001) = true := by decide +kernel

theorem witness_CompressorFrameFollowsTheAlgorithm :
    (Legal gateLate ∧ gateLate.frameIndex.toNat < 2 ^ 64 - 1) ∧ compStep comp0 0 = .ok (comp1, 0) ∧
    compStep comp0 10000 =
      .ok ({ comp0 with gain := f0, envelope := toF 9000, ceilGain := f1, frameIndex := 1, phaseEnd := 1 }, 0) :=
  ⟨⟨legal_gateLate, by decide⟩, frameOf_sound (by decide +kernel), frameOf_sound (by decide +kernel)⟩

/-- An UP frame, a hold frame (e = 2) and the first ramp frame (e = `hold` = 3): V43.2, frames 1, 7 and 8 with envelope 0. -/
theorem witness_GateFrameFollowsTheAlgorithm :
    (Legal gateLate ∧ gateLate.frameIndex.toNat < 2 ^ 64 - 1) ∧ gateStep gate0 2000 =
      .ok ({ gate0 with gain := f0, envelope := toF 1800, ceilGain := f1, frameIndex := 1, phaseStart := 1 }, 0) ∧
    gateStep { gate0 with gain := f1, floorGain := f1, frameIndex := 6, phaseEnd := 5 } 0 =
      .ok ({ gate0 with gain := f1, floorGain := f1, frameIndex := 7, phaseEnd := 5 }, 0) ∧
    gateStep { gate0 with gain := f1, floorGain := f1, frameIndex := 8, phaseEnd := 5 } 0 =
      .ok ({ gate0 with gain := 0x3FE8000000000000#64, floorGain := 0x3FE8000000000000#64, frameIndex := 9, phaseEnd := 5 }, 0) :=
  ⟨⟨legal_gateLate, by decide⟩, frameOf_sound (by decide +kernel), frameOf_sound (by decide +kernel),
    frameOf_sound (by decide +kernel)⟩

/-- R96 with `hold` = 3: the gain of frame 3 is 1.0, that of frame 4 is 0.0. -/
theorem witness_SilentGateHoldsThenCloses :
    0 < config.expDefault.toNat ∧ InUnit config.expDefault ∧ 3 ≤ gate0.hold.toNat ∧ gate0.hold.toNat + 1 ≤ 4 ∧
    (okOf (frameLoop gate0 (List.replicate 6 0))).map (·.1.gain) = some f1 ∧
    (okOf (frameLoop gate0 (List.replicate 8 0))).map (·.1.gain) = some f0 := by decide +kernel

theorem witness_FirstFrame_and_SilentCompressor :
    (4 : U32) ≠ 0 ∧ (8 : U32) ≠ 0 ∧ (1000 : U32) ≠ 0 ∧ 0 < config.expDefault.toNat ∧ InUnit config.expDefault ∧
    0 < (1 : F64).toNat ∧ InUnit (1 : F64) ∧ 8 ≤ (8 : U32).toNat ∧ (8 : U32).toNat + 1 ≤ 9 := by decide

/-- `overflowBound` in units of 2^-1074. -/
def overflowUnits : Int := (2 ^ 1024 - 2 ^ 970) * 2 ^ 1074

theorem cast_overflowUnits : (overflowUnits : ℚ) = overflowBound * 2 ^ 1074 := by
  unfold overflowUnits overflowBound
  rw [Int.cast_mul, Int.cast_sub, Int.cast_pow, Int.cast_pow, Int.cast_pow, Int.cast_ofNat]

theorem overflowBound_le_add_iff {a b : F64} :
    overflowBound ≤ value a + value b ↔ overflowUnits ≤ funits a + funits b := by
  have hp : (0 : ℚ) < 2 ^ 1074 := pow_pos two_pos 1074
  rw [value, value, ← add_div, le_div_iff₀ hp, ← cast_overflowUnits, ← Int.cast_add, Int.cast_le]

/-- Both clauses of `Rounded` where they meet: the greatest finite value plus 2^970 is the bound itself, and overflows; plus
the binary64 number next below 2^970 it does not. -/
theorem witness_ArithmeticAtTheOverflowBound :
    (isFinite (0x7FEFFFFFFFFFFFFF#64 : F64) = true ∧ isFinite (0x7C90000000000000#64 : F64) = true ∧
      overflowBound ≤ value 0x7FEFFFFFFFFFFFFF#64 + value 0x7C90000000000000#64 ∧
      fadd 0x7FEFFFFFFFFFFFFF#64 0x7C90000000000000#64 = 0x7FF0000000000000#64) ∧
    (isFinite (0x7C8FFFFFFFFFFFFF#64 : F64) = true ∧
      ¬ overflowBound ≤ value 0x7FEFFFFFFFFFFFFF#64 + value 0x7C8FFFFFFFFFFFFF#64 ∧
      fadd 0x7FEFFFFFFFFFFFFF#64 0x7C8FFFFFFFFFFFFF#64 = 0x7FEFFFFFFFFFFFFF#64) :=
  ⟨⟨by decide, by decide, overflowBound_le_add_iff.mpr (by decide +kernel), by decide +kernel⟩,
    by decide, fun h => absurd (overflowBound_le_add_iff.mp h) (by decide +kernel), by decide +kernel⟩

/-- Finite operands whose results are zeros of either sign: -0 + -0, -0 + 0, 1 - 1, -0 - 0, -0 * 1, -0 / 1. -/
theorem witness_ResultsHaveTheIeeeSign :
    isFinite (0x8000000000000000#64 : F64) = true ∧ isFinite f0 = true ∧ isFinite f1 = true ∧
    [fadd 0x8000000000000000#64 0x8000000000000000#64, fadd 0x8000000000000000#64 f0, fsub f1 f1,
      fsub 0x8000000000000000#64 f0, fmul 0x8000000000000000#64 f1, fdiv 0x8000000000000000#64 f1] =
    [0x8000000000000000#64, f0, f0, 0x8000000000000000#64, 0x8000000000000000#64, 0x8000000000000000#64] := by
  decide +kernel

/-- Finite operands in order, out of order and tied (-0 and +0). -/
theorem witness_ComparisonsFollowTheValues :
    isFinite f0 = true ∧ isFinite f1 = true ∧ isFinite (0x8000000000000000#64 : F64) = true ∧
    okOf (flt f0 f1) = some true ∧ okOf (flt f1 f0) = some false ∧ okOf (fgt f0 f0) = some false ∧
    okOf (fmin f0 0x8000000000000000#64) = some f0 ∧ okOf (fmax 0x8000000000000000#64 f0) = some 0x8000000000000000#64 := by
  decide +kernel

theorem witness_Arithmetic :
    isFinite config.expDefault = true ∧ isFinite f1 = true ∧ isFinite (0x0000000000000001#64 : F64) = true ∧
    isFinite (0x7FEFFFFFFFFFFFFF#64 : F64) = true ∧ value f1 ≠ 0 :=
  ⟨by decide, by decide, by decide, by decide, (value_pos_of_funits (by decide +kernel)).ne'⟩

theorem witness_NanOperandsFault : isNaN (0x7FF8000000000000#64 : F64) = true ∧ isNaN f1 = false := by decide

theorem witness_EveryStepKeepsTheInvariant_and_NoLegalStepFaults :
    Invariant { mach comp0 with port := [0, 0, 0, 0x10, 2, 0, 0, 0, 0, 0] } ∧
    step { mach comp0 with port := [0, 0, 0, 0x10, 2, 0, 0, 0, 0, 0] } = .next { mach comp1 with response := [0, 0, 0] } :=
  ⟨fun _ => legal_comp0, isNext_sound (by decide +kernel)⟩

theorem witness_UnconstructedFieldsAreNeverRead :
    State.reset.regs.mode = .uninit ∧ (mach { comp1 with mode := .uninit }).regs.mode = .uninit ∧
    (mach { comp1 with mode := .uninit }).port = State.reset.port ∧
    (mach { comp1 with mode := .uninit }).response = State.reset.response := by decide

end Sys2Proof.Tests
end

section
/-! The legal headers of 30_encoding R63. Each command has one header word, `commandHeader`, and `decodeHeader` is its
inverse: it answers a command on that word only. O9 and O11 are read off from this. -/

namespace Sys2Proof.Proofs

open Sys2Proof.Machine Sys2Proof.Safety Sys2Proof.Laws

/-- The parameter register numbers of R59, the other direction of `paramOfReg`. -/
def paramNumber : ParamReg → BitVec 8
  | .attack => 0x00#8
  | .release => 0x01#8
  | .hold => 0x02#8
  | .threshold => 0x03#8

theorem paramOfReg_eq_some_iff {r : BitVec 8} {p : ParamReg} : paramOfReg r = some p ↔ r = paramNumber p := by
  constructor
  · intro h
    unfold paramOfReg at h
    split_ifs at h with hr hr hr hr <;> cases h <;> exact hr
  · rintro rfl
    cases p <;> rfl

/-- The header word of a command: its OP and REG of R58 and R59 and its D flag, RSV = 0 (R57). -/
def commandHeader : Command → U32
  | .initC d => headerWord 0x01#8 0x00#8 d
  | .initG d => headerWord 0x02#8 0x00#8 d
  | .feed => headerWord 0x10#8 0x00#8 false
  | .get p => headerWord 0x20#8 (paramNumber p) false
  | .set p => headerWord 0x21#8 (paramNumber p) false

theorem commandHeader_mem_legalHeaders (c : Command) : commandHeader c ∈ legalHeaders := by
  cases c with
  | initC d => cases d <;> decide
  | initG d => cases d <;> decide
  | feed => decide
  | get p => cases p <;> decide
  | set p => cases p <;> decide

theorem decodeHeader_commandHeader (c : Command) : decodeHeader (commandHeader c) = some c := by
  cases c with
  | initC d => cases d <;> rfl
  | initG d => cases d <;> rfl
  | feed => rfl
  | get p => cases p <;> rfl
  | set p => cases p <;> rfl

/-- A word whose RSV field is 0 is the word of its other three fields (R57). -/
theorem headerWord_of_headerRsv {h : U32} (hrsv : headerRsv h = 0#15) :
    headerWord (headerOp h) (headerReg h) (headerD h) = h := by
  have hd : BitVec.ofBool (headerD h) = h.extractLsb' 0 1 :=
    BitVec.eq_of_getLsbD_eq fun i hi => by
      obtain rfl : i = 0 := by omega
      simp [headerD]
  rw [headerWord, ← hrsv, hd, headerOp, headerReg, headerRsv,
    BitVec.extractLsb'_append_extractLsb'_eq_extractLsb' (show 24 = 16 + 8 from rfl),
    BitVec.extractLsb'_append_extractLsb'_eq_extractLsb' (show 16 = 1 + 15 from rfl),
    BitVec.extractLsb'_append_extractLsb'_eq_extractLsb' (show 1 = 0 + 1 from rfl)]
  exact BitVec.extractLsb'_eq_self

/-- The branches of R63 from the answer back: a header that decodes has RSV = 0, and its other fields are its command's. -/
theorem eq_commandHeader_of_decodeHeader {h : U32} {c : Command} (hc : decodeHeader h = some c) :
    h = commandHeader c := by
  by_cases hrsv : headerRsv h = 0#15
  · rw [← headerWord_of_headerRsv hrsv]
    simp only [decodeHeader, hrsv, ne_eq, not_true_eq_false, if_false] at hc
    split_ifs at hc with hop hreg hop hreg hop hreg hop hd hop hd
    · cases hc; rw [hop, hreg]; rfl
    · cases hc; rw [hop, hreg]; rfl
    · obtain ⟨hreg, hd⟩ := hreg
      cases hc; rw [hop, hreg, hd]; rfl
    · obtain ⟨p, hp, rfl⟩ := Option.map_eq_some_iff.mp hc
      rw [hop, hd, paramOfReg_eq_some_iff.mp hp]; rfl
    · obtain ⟨p, hp, rfl⟩ := Option.map_eq_some_iff.mp hc
      rw [hop, hd, paramOfReg_eq_some_iff.mp hp]; rfl
  · simp [decodeHeader, hrsv] at hc

/-- R63 whole: a word decodes to a command exactly when it is that command's header. -/
theorem decodeHeader_eq_some_iff {h : U32} {c : Command} : decodeHeader h = some c ↔ h = commandHeader c :=
  ⟨eq_commandHeader_of_decodeHeader, fun hh => hh ▸ decodeHeader_commandHeader c⟩

/-- Any case not listed is illegal (R63). -/
theorem decodeHeader_eq_none_of_not_mem {h : U32} (hl : h ∉ legalHeaders) : decodeHeader h = none := by
  refine Option.eq_none_iff_forall_ne_some.mpr fun c hc => hl ?_
  rw [decodeHeader_eq_some_iff.mp hc]
  exact commandHeader_mem_legalHeaders c

/-- The decoder stops at an illegal header, with what follows its four bytes unread (R64). -/
theorem decode_leBytes32_of_not_mem {h : U32} (hl : h ∉ legalHeaders) (rest : List Byte) :
    decode (leBytes32 h ++ rest) = .error (.illegalHeader h rest) := by
  rw [decode_leBytes32, decodeHeader_eq_none_of_not_mem hl]

/-- Settles O9: `decodeHeader` inverts `commandHeader`, whose thirteen values are the listed words. -/
theorem headersDecodeAsListed : Obligations.HeadersDecodeAsListed :=
  ⟨fun _ => decodeHeader_eq_none_of_not_mem,
    decodeHeader_commandHeader (.initC false), decodeHeader_commandHeader (.initC true),
    decodeHeader_commandHeader (.initG false), decodeHeader_commandHeader (.initG true),
    decodeHeader_commandHeader .feed,
    decodeHeader_commandHeader (.get .attack), decodeHeader_commandHeader (.get .release),
    decodeHeader_commandHeader (.get .hold), decodeHeader_commandHeader (.get .threshold),
    decodeHeader_commandHeader (.set .attack), decodeHeader_commandHeader (.set .release),
    decodeHeader_commandHeader (.set .hold), decodeHeader_commandHeader (.set .threshold)⟩

/-- Settles O11: the fetch finds the illegal header, and the step raises ILLEGAL_COMMAND on the rest of the port. -/
theorem illegalHeaderChangesNoState : Obligations.IllegalHeaderChangesNoState := by
  intro s h rest hl hport
  have hdecode : decode s.port = .error (.illegalHeader h rest) := by
    rw [hport, decode_leBytes32_of_not_mem hl]
  rw [step, fetch_illegal hdecode]
  rfl

end Sys2Proof.Proofs
end

section
/-! RECTIFY (40_envelope_follower R69): the magnitude is a `Nat`, so the one sample whose magnitude passes the `i16` range,
-32768, does not wrap. -/

namespace Sys2Proof.Proofs

open Sys2Proof.Machine

theorem rectify_eq_natAbs_toInt (s : Sample) : rectify s = s.toInt.natAbs := rfl

/-- The bound is reached only from below zero: an `i16` lies in -32768 to 32767. -/
theorem rectify_le (s : Sample) : rectify s ≤ 32768 := by
  have hlo : -32768 ≤ s.toInt := BitVec.le_toInt s
  have hhi : s.toInt < 32768 := BitVec.toInt_lt
  rw [rectify_eq_natAbs_toInt]
  omega

theorem rectify_intMin : rectify (BitVec.intMin 16) = 32768 := by
  rw [rectify_eq_natAbs_toInt, BitVec.toInt_intMin]
  rfl

/-- Settles O32: RECTIFY takes the magnitude of the sample's integer, and the bound 32768 is reached at the least sample. -/
theorem rectifyNeverWraps : Obligations.RectifyNeverWraps :=
  ⟨fun s => ⟨rectify_eq_natAbs_toInt s, rectify_le s⟩, rectify_intMin⟩

end Sys2Proof.Proofs
end

section
/-! The phase after an entry (10_state R30, 41_gain_ramp_controller R77 and R78). An entry that happens sets the counter of
its phase to `frameIndex`, which is not 0 on a frame; one that does not finds that counter set. UP goes by `phaseStart`
alone, but DOWN also needs `phaseStart` = 0, and that is where ENTER_DOWN in its own phase takes a premise. -/

namespace Sys2Proof.Proofs

open Sys2Proof.Machine Sys2Proof.Laws

theorem phase_of_phaseStart_ne {st : Regs} (hs : st.phaseStart ≠ 0) : phase st = .up := if_pos hs

theorem phase_of_phaseEnd_ne {st : Regs} (hs : st.phaseStart = 0) (he : st.phaseEnd ≠ 0) : phase st = .down :=
  (if_neg (not_not_intro hs)).trans (if_pos he)

theorem phase_enterUp {st : Regs} (hf : st.frameIndex ≠ 0) : phase (enterUp st) = .up := by
  by_cases hs : st.phaseStart = 0
  · rw [enterUp_of_zero hs]
    exact phase_of_phaseStart_ne hf
  · rw [enterUp_of_ne hs]
    exact phase_of_phaseStart_ne hs

/-- The premise `h` is R36 as far as it is needed: the counters are not both set. -/
theorem phase_enterDown {st : Regs} (hf : st.frameIndex ≠ 0) (h : st.phaseEnd ≠ 0 → st.phaseStart = 0) :
    phase (enterDown st) = .down := by
  by_cases he : st.phaseEnd = 0
  · rw [enterDown_of_zero he]
    exact phase_of_phaseEnd_ne rfl hf
  · rw [enterDown_of_ne he]
    exact phase_of_phaseEnd_ne (h he) he

/-- Settles O38: each entry by whether its counter is 0, and the phase it leaves. -/
theorem phaseEntriesTakeSnapshots : Obligations.PhaseEntriesTakeSnapshots :=
  fun _ => ⟨enterUp_of_zero, enterUp_of_ne, enterDown_of_zero, enterDown_of_ne, phase_enterUp, phase_enterDown⟩

end Sys2Proof.Proofs
end

section
/-! Bounds of the numeric primitives (00_scope R14) that a frame needs to meet no NaN (R15): the clamps on patterns up to
that of infinity, the conversion of an integer up to 2^64 (the largest a frame converts is an elapsed count), and a
difference by whether it is below zero. -/

namespace Sys2Proof.Proofs

open Sys2Proof.Machine Sys2Proof.Safety Sys2Proof.Laws

theorem lt_infMag_of_inUnit {x : F64} (h : InUnit x) : x.toNat < infMag := lt_of_le_of_lt h infMag_finite_lt_f1

theorem inUnit_f0 : InUnit f0 := by decide

theorem inUnit_f1 : InUnit f1 := le_rfl

theorem fmin_of_le {a b : F64} (ha : a.toNat ≤ infMag) (hb : b.toNat ≤ infMag) :
    fmin a b = .ok (if b.toNat < a.toNat then b else a) := by
  simp [fmin, unlessNaN, isNaN_of_le ha, isNaN_of_le hb, fltOrdered_of_le hb ha]

theorem fmax_of_le {a b : F64} (ha : a.toNat ≤ infMag) (hb : b.toNat ≤ infMag) :
    fmax a b = .ok (if a.toNat < b.toNat then b else a) := by
  simp [fmax, unlessNaN, isNaN_of_le ha, isNaN_of_le hb, fltOrdered_of_le ha hb]

theorem isNaN_fpack {neg : Bool} {m : Nat} (h : m ≤ infMag) : isNaN (fpack neg m) = false := by
  rw [isNaN, fmag_fpack (lt_of_le_of_lt h infMag_lt)]
  exact decide_eq_false (not_lt_of_ge h)

theorem not_special_of_finite {x : F64} (h : isFinite x = true) : isInf x = false ∧ isNaN x = false := by
  simpa [h] using kinds x

theorem isNaN_fmul_of_finite {a b : F64} (ha : isFinite a = true) (hb : isFinite b = true) :
    isNaN (fmul a b) = false := by
  simp only [fmul, not_special_of_finite ha, not_special_of_finite hb, Bool.or_self, Bool.false_eq_true, if_false]
  exact isNaN_fpack (roundMag_le_inf _ _)

/-! Integers. -/

theorem magUnits_two_pow (k : Nat) : magUnits ((1023 + k) * 2 ^ 52) = 2 ^ k * oneUnits := by
  have hsplit : (1023 + k) * 2 ^ 52 = (1022 + k) * 2 ^ 52 + 2 ^ 52 := by ring
  rw [hsplit, magUnits_normal le_rfl (by norm_num), two_pow_split rfl, oneUnits, two_pow_split rfl]
  congr 1
  omega

/-- Magnitude bits up to the pattern of 2^k stand for at most 2^k. -/
theorem magUnits_le_two_pow {m k : Nat} (hk : k ≤ 1023) (hm : m ≤ (1023 + k) * 2 ^ 52) :
    magUnits m ≤ 2 ^ k * oneUnits := by
  have hinf : (1023 + k) * 2 ^ 52 ≤ infMag := by norm_num [infMag]; omega
  rw [← magUnits_two_pow]
  exact (magUnits_le_iff (le_trans hm hinf) hinf).2 hm

theorem fmag_toF (i : Int) : fmag (toF i) = roundMag (i.natAbs * oneUnits) 1 := fmag_fpack (roundMag_lt _ _)

/-- The pattern of 2^64 bounds that of every integer up to it. -/
theorem fmag_toF_le {i : Int} (h : i.natAbs ≤ 2 ^ 64) : fmag (toF i) ≤ (1023 + 64) * 2 ^ 52 := by
  rw [fmag_toF]
  refine roundMag_le Nat.one_pos (by decide) ?_
  rw [magUnits_two_pow, Nat.mul_one]
  exact Nat.mul_le_mul_right _ h

theorem isFinite_toF {i : Int} (h : i.natAbs ≤ 2 ^ 64) : isFinite (toF i) = true :=
  decide_eq_true (lt_of_le_of_lt (fmag_toF_le h) (by decide))

theorem toF_natCast_le {n : Nat} (h : n ≤ 2 ^ 64) : (toF n).toNat ≤ (1023 + 64) * 2 ^ 52 := by
  rw [toF_nonneg]
  simpa [fmag_toF] using fmag_toF_le (i := n) (by simpa using h)

theorem toF_natCast_lt_infMag {n : Nat} (h : n ≤ 2 ^ 64) : (toF n).toNat < infMag :=
  lt_of_le_of_lt (toF_natCast_le h) (by decide)

theorem toF_u32_lt_infMag (T : U32) : (toF T.toNat).toNat < infMag :=
  toF_natCast_lt_infMag (by have := T.isLt; omega)

/-! Differences of a value and one that is not negative. -/

theorem fsub_le {a b : F64} (ha : a.toNat < infMag) (hb : b.toNat ≤ a.toNat) : (fsub a b).toNat ≤ a.toNat := by
  rw [fsub_nonneg ha hb]
  exact roundMag_le Nat.one_pos ha.le (by omega)

theorem funits_lt_of_forder_lt {a b : F64} (ha : fmag a < infMag) (hb : b.toNat < infMag) (h : forder a < b.toNat) :
    funits a < magUnits b.toNat := by
  have hmono := magUnits_le_iff hb.le ha.le
  have hza := magUnits_eq_zero ha.le
  have hzb := magUnits_eq_zero hb.le
  unfold forder at h
  unfold funits
  split at h
  · next hneg => rw [if_pos hneg]; omega
  · next hpos => rw [if_neg hpos]; omega

/-- Below zero, and so not rounded to a zero of either sign. -/
theorem fsub_neg {a b : F64} (ha : isNaN a = false) (hb : b.toNat < infMag) (h : forder a < b.toNat) :
    isNaN (fsub a b) = false ∧ forder (fsub a b) < 0 := by
  have hbi := isInf_nonneg hb
  cases hai : isInf a with
  | true =>
    have hm : fmag a = infMag := by simpa [isInf] using hai
    have hneg : fneg a = true := by
      by_contra hp
      rw [forder, if_neg hp, hm] at h
      omega
    have hx : fsub a b = a := by simp [fsub, ha, isNaN_nonneg hb, hai, hbi]
    rw [hx, forder, if_pos hneg, hm]
    exact ⟨ha, by decide⟩
  | false =>
    have haf : fmag a < infMag := by simpa [isFinite, ha, hai] using kinds a
    have hz : funits a + funits (fflip b) < 0 := by
      have := funits_lt_of_forder_lt haf hb h
      have hfb : funits (fflip b) = -(magUnits b.toNat : Int) := by
        simp [funits, fflip_parts, fneg_nonneg hb, fmag_nonneg hb]
      omega
    have hx : fsub a b = fpack true (roundMag (funits a + funits (fflip b)).natAbs 1) := by
      simp [fsub, faddFinite, ha, isNaN_nonneg hb, hai, hbi, hz, hz.ne]
    have hpos : 1 ≤ roundMag (funits a + funits (fflip b)).natAbs 1 :=
      le_roundMag Nat.one_pos (by decide) (by rw [magUnits_small (by norm_num)]; omega)
    rw [hx, forder, fneg_fpack (roundMag_lt _ _), fmag_fpack (roundMag_lt _ _), if_pos rfl]
    exact ⟨isNaN_fpack (roundMag_le_inf _ _), by omega⟩

/-- The lower clamp of R76 on a difference below zero. -/
theorem fmax_fsub_f0_of_neg {a b : F64} (ha : isNaN a = false) (hb : b.toNat < infMag) (h : forder a < b.toNat) :
    fmax (fsub a b) f0 = .ok f0 := by
  obtain ⟨hx, hneg⟩ := fsub_neg ha hb h
  have h0 : isNaN f0 = false := by decide
  have hlt : fltOrdered (fsub a b) f0 = true := by
    rw [fltOrdered, hx, h0]
    exact decide_eq_true hneg
  rw [fmax, hlt, if_pos rfl]
  exact unlessNaN_ok.2 ⟨hx, h0, rfl⟩

/-! A product with a factor in [0, 1]. -/

theorem fmul_le_right {a b : F64} (ha : InUnit a) (hb : b.toNat < infMag) : (fmul a b).toNat ≤ b.toNat := by
  have hle : magUnits a.toNat ≤ oneUnits := by
    have h1 := (magUnits_le_iff (lt_infMag_of_inUnit ha).le (lt_infMag_of_inUnit inUnit_f1).le).2 ha
    rwa [← fmag_nonneg infMag_finite_lt_f1, magUnits_one] at h1
  rw [fmul_nonneg (lt_infMag_of_inUnit ha) hb]
  refine roundMag_le oneUnits_pos hb.le ?_
  rw [Nat.mul_comm]
  exact Nat.mul_le_mul_left _ hle

end Sys2Proof.Proofs
end

section
/-! A frame on a legal state meets no NaN (00_scope R15): the envelope stays finite, the ramps answer a gain in [0, 1] (R75,
R76), and so the clamps, the tracking and the output all have finite operands. -/

namespace Sys2Proof.Proofs

open Sys2Proof.Machine Sys2Proof.Safety Sys2Proof.Laws

/-- The terms of R70 are at most 2^64 and the cap 2^69, so their sum is at most 2^70. -/
theorem nextEnvelope_lt_infMag {e env : F64} (he : InUnit e) (henv : env.toNat ≤ envelopeCap.toNat) (s : Sample) :
    (nextEnvelope e env s).toNat < infMag := by
  have hcap : envelopeCap.toNat = (1023 + 69) * 2 ^ 52 := by decide
  have hs : rectify s ≤ 2 ^ 64 := le_trans (rectify_le s) (by norm_num)
  have h1 := le_trans (fmul_le_right he (toF_natCast_lt_infMag hs)) (toF_natCast_le hs)
  have h2 : (fmul (fsub f1 e) env).toNat ≤ (1023 + 69) * 2 ^ 52 := by
    rw [hcap] at henv
    exact le_trans (fmul_le_right (fsub_le infMag_finite_lt_f1 he) (lt_of_le_of_lt henv (by decide))) henv
  have hsum : (nextEnvelope e env s).toNat ≤ (1023 + 70) * 2 ^ 52 := by
    rw [nextEnvelope, fadd_nonneg (lt_of_le_of_lt h1 (by decide)) (lt_of_le_of_lt h2 (by decide))]
    refine roundMag_le Nat.one_pos (by decide) ?_
    rw [magUnits_two_pow]
    have := magUnits_le_two_pow (by norm_num) h1
    have := magUnits_le_two_pow (by norm_num) h2
    omega
  exact lt_of_le_of_lt hsum (by decide)

/-- A ratio of counts is at most its dividend: the timer is at least 1. -/
theorem rampQ_lt_infMag {d : Nat} {T : U32} (hd : d ≤ 2 ^ 64) (hT : T ≠ 0) : (rampQ d T).toNat < infMag := by
  have hdf := toF_natCast_lt_infMag hd
  have hTf := toF_u32_lt_infMag T
  have hTpos : 0 < T.toNat := Nat.pos_of_ne_zero fun h => hT (BitVec.eq_of_toNat_eq h)
  have hTu : oneUnits ≤ magUnits (toF T.toNat).toNat := by
    rw [toF_units (by have := T.isLt; omega)]
    exact Nat.le_mul_of_pos_left _ hTpos
  have hTne : 0 < (toF T.toNat).toNat := by
    refine Nat.pos_of_ne_zero fun h => ?_
    rw [h, magUnits_zero] at hTu
    exact absurd oneUnits_pos (not_lt_of_ge hTu)
  rw [rampQ, fdiv_nonneg hdf hTf hTne]
  refine lt_of_le_of_lt (roundMag_le (lt_of_lt_of_le oneUnits_pos hTu) hdf.le ?_) hdf
  exact Nat.mul_le_mul_left _ hTu

theorem rampUp_of_ne {st : Regs} {d : Int} {T : U32} (hT : T ≠ 0) :
    rampUp st d T = fmin (fadd st.floorGain (rampQ d T)) f1 := if_neg hT

theorem rampDown_of_ne {st : Regs} {d : Int} {T : U32} (hT : T ≠ 0) :
    rampDown st d T = fmax (fsub (fsub f1 (rampQ d T)) st.ceilGain) f0 := if_neg hT

theorem rampUp_zero (st : Regs) (d : Int) : rampUp st d 0 = .ok f1 := rfl

theorem rampDown_zero (st : Regs) (d : Int) : rampDown st d 0 = .ok f0 := rfl

theorem rampUp_answers {st : Regs} {d : Nat} (T : U32) (hf : InUnit st.floorGain) (hd : d ≤ 2 ^ 64) :
    ∃ g, rampUp st d T = .ok g ∧ InUnit g := by
  by_cases hT : T = 0
  · subst hT
    exact ⟨f1, rampUp_zero st d, inUnit_f1⟩
  · have hsum : (fadd st.floorGain (rampQ d T)).toNat ≤ infMag := by
      rw [fadd_nonneg (lt_infMag_of_inUnit hf) (rampQ_lt_infMag hd hT)]
      exact roundMag_le_inf _ _
    rw [rampUp_of_ne hT, fmin_of_le hsum (lt_infMag_of_inUnit inUnit_f1).le]
    refine ⟨_, rfl, ?_⟩
    split <;> omega

/-- The ramp is the difference while that is not below zero, and 0.0 where the count is past the timer or the rest of the
ramp below `ceilGain`. -/
theorem rampDown_answers {st : Regs} {d : Nat} (T : U32) (hc : InUnit st.ceilGain) (hd : d ≤ 2 ^ 64) :
    ∃ g, rampDown st d T = .ok g ∧ InUnit g := by
  by_cases hT : T = 0
  · subst hT
    exact ⟨f0, rampDown_zero st d, inUnit_f0⟩
  · rw [rampDown_of_ne hT]
    have hq := rampQ_lt_infMag hd hT
    have hc' := lt_infMag_of_inUnit hc
    rcases Nat.lt_or_ge f1.toNat (rampQ d T).toNat with hpast | hwithin
    · obtain ⟨hn, hneg⟩ := fsub_neg (a := f1) (by decide) hq (by rw [forder_of_nonneg (by decide)]; omega)
      exact ⟨f0, fmax_fsub_f0_of_neg hn hc' (by omega), inUnit_f0⟩
    · have hrest : InUnit (fsub f1 (rampQ d T)) := fsub_le infMag_finite_lt_f1 hwithin
      have hrest' := lt_infMag_of_inUnit hrest
      rcases Nat.lt_or_ge (fsub f1 (rampQ d T)).toNat st.ceilGain.toNat with hlt | hge
      · have hbelow : forder (fsub f1 (rampQ d T)) < st.ceilGain.toNat := by
          rw [forder_of_nonneg (nonneg_lt hrest')]
          omega
        exact ⟨f0, fmax_fsub_f0_of_neg (isNaN_nonneg hrest') hc' hbelow, inUnit_f0⟩
      · have hdiff : InUnit (fsub (fsub f1 (rampQ d T)) st.ceilGain) := le_trans (fsub_le hrest' hge) hrest
        rw [fmax_of_le (lt_infMag_of_inUnit hdiff).le (by decide)]
        refine ⟨_, rfl, ?_⟩
        split
        · exact inUnit_f0
        · exact hdiff

/-- What the branches of a frame read of the registers: gains in [0, 1] (R34, R35) and phase counters that are not ahead of
the frame counter (R37). -/
structure InRange (st : Regs) : Prop where
  gain : InUnit st.gain
  floorGain : InUnit st.floorGain
  ceilGain : InUnit st.ceilGain
  startPast : st.phaseStart.toNat ≤ st.frameIndex.toNat
  endPast : st.phaseEnd.toNat ≤ st.frameIndex.toNat

theorem frameAdvance_inRange {st : Regs} (h : Legal st) (hlt : st.frameIndex.toNat < 2 ^ 64 - 1) (s : Sample) :
    InRange (envUpdate s (frameAdvance st)) := by
  have hf : (st.frameIndex + 1).toNat = st.frameIndex.toNat + 1 := by
    rw [BitVec.toNat_add_of_lt] <;> simp; omega
  exact ⟨h.gain, h.floorGain, h.ceilGain, hf ▸ Nat.le_succ_of_le h.startPast, hf ▸ Nat.le_succ_of_le h.endPast⟩

theorem enterUp_inRange {st : Regs} (h : InRange st) : InRange (enterUp st) := by
  by_cases hs : st.phaseStart = 0
  · rw [enterUp_of_zero hs]
    exact ⟨h.gain, h.floorGain, h.gain, le_rfl, Nat.zero_le _⟩
  · rwa [enterUp_of_ne hs]

theorem enterDown_inRange {st : Regs} (h : InRange st) : InRange (enterDown st) := by
  by_cases he : st.phaseEnd = 0
  · rw [enterDown_of_zero he]
    exact ⟨h.gain, h.gain, fsub_le infMag_finite_lt_f1 h.ceilGain, Nat.zero_le _, le_rfl⟩
  · rwa [enterDown_of_ne he]

/-- In range, elapsed frames are a count that a `u64` holds. -/
theorem elapsedUp_eq_natCast {st : Regs} (h : InRange st) : ∃ d : Nat, elapsedUp st = d ∧ d ≤ 2 ^ 64 :=
  ⟨st.frameIndex.toNat - st.phaseStart.toNat, (Int.ofNat_sub h.startPast).symm, by have := st.frameIndex.isLt; omega⟩

theorem elapsedDown_eq_natCast {st : Regs} (h : InRange st) : ∃ d : Nat, elapsedDown st = d ∧ d ≤ 2 ^ 64 :=
  ⟨st.frameIndex.toNat - st.phaseEnd.toNat, (Int.ofNat_sub h.endPast).symm, by have := st.frameIndex.isLt; omega⟩

theorem trackUp_answers {st : Regs} (hc : InUnit st.ceilGain) (hg : InUnit st.gain) :
    ∃ c, trackUp st = .ok { st with ceilGain := c } := by
  rw [trackUp, fmax_of_le (lt_infMag_of_inUnit hc).le (lt_infMag_of_inUnit hg).le]
  exact ⟨_, rfl⟩

theorem trackDown_answers {st : Regs} (hf : InUnit st.floorGain) (hg : InUnit st.gain) :
    ∃ f, trackDown st = .ok { st with floorGain := f } := by
  rw [trackDown, fmin_of_le (lt_infMag_of_inUnit hf).le (lt_infMag_of_inUnit hg).le]
  exact ⟨_, rfl⟩

theorem upBranch_answers {st : Regs} (T : U32) (h : InRange st) : ∃ st', upBranch T st = .ok st' ∧ InUnit st'.gain := by
  have hin := enterUp_inRange h
  obtain ⟨d, hd, hle⟩ := elapsedUp_eq_natCast hin
  obtain ⟨g, hramp, hg⟩ := rampUp_answers T hin.floorGain hle
  obtain ⟨c, htrack⟩ := trackUp_answers (st := { enterUp st with gain := g }) hin.ceilGain hg
  refine ⟨{ enterUp st with gain := g, ceilGain := c }, ?_, hg⟩
  rw [upBranch, hd, hramp]
  exact htrack

theorem compDown_answers {st : Regs} (h : InRange st) : ∃ st', compDown st = .ok st' ∧ InUnit st'.gain := by
  have hin := enterDown_inRange h
  obtain ⟨d, hd, hle⟩ := elapsedDown_eq_natCast hin
  obtain ⟨g, hramp, hg⟩ := rampDown_answers (enterDown st).attack hin.ceilGain hle
  obtain ⟨f, htrack⟩ := trackDown_answers (st := { enterDown st with gain := g }) hin.floorGain hg
  refine ⟨{ enterDown st with gain := g, floorGain := f }, ?_, hg⟩
  rw [compDown, hd, hramp]
  exact htrack

theorem compBranch_answers {st : Regs} (up : Bool) (h : InRange st) :
    ∃ st', compBranch up st = .ok st' ∧ InUnit st'.gain := by
  cases up with
  | true => exact upBranch_answers st.release h
  | false => exact compDown_answers h

theorem compSelect_answers {st : Regs} (henv : st.envelope.toNat < infMag) (hg : InUnit st.gain) :
    ∃ up, compSelect st = .ok up := by
  have hprod : (fmul st.envelope st.gain).toNat ≤ infMag := by
    rw [fmul_nonneg henv (lt_infMag_of_inUnit hg)]
    exact roundMag_le_inf _ _
  exact ⟨_, unlessNaN_ok.2 ⟨isNaN_of_le hprod, isNaN_nonneg (toF_u32_lt_infMag _), rfl⟩⟩

theorem trunc_answers {x : F64} (h : isNaN x = false) : ∃ o, trunc x = .ok o := by
  cases hi : isInf x with
  | true => exact ⟨_, by rw [trunc, h, hi]; rfl⟩
  | false => exact ⟨_, by rw [trunc, h, hi]; rfl⟩

theorem applyGain_answers {st : Regs} (hg : InUnit st.gain) (s : Sample) : ∃ o, applyGain st s = .ok o := by
  have hs : isFinite (toF (sext16 s)) = true := isFinite_toF (le_trans (rectify_le s) (by norm_num))
  have hgf : isFinite st.gain = true :=
    decide_eq_true (by rw [fmag_nonneg (lt_infMag_of_inUnit hg)]; exact lt_infMag_of_inUnit hg)
  exact trunc_answers (isNaN_fmul_of_finite hs hgf)

theorem compStep_answers {st : Regs} (h : Legal st) (hlt : st.frameIndex.toNat < 2 ^ 64 - 1) (s : Sample) :
    ∃ r, compStep st s = .ok r := by
  have hin := frameAdvance_inRange h hlt s
  obtain ⟨up, hup⟩ := compSelect_answers (nextEnvelope_lt_infMag h.exp.2 h.envelope s) hin.gain
  obtain ⟨st', hst', hg⟩ := compBranch_answers up hin
  obtain ⟨o, ho⟩ := applyGain_answers hg s
  exact ⟨(st', o), bind_eq_ok.2 ⟨up, hup, bind_eq_ok.2 ⟨st', hst', bind_eq_ok.2 ⟨o, ho, rfl⟩⟩⟩⟩

end Sys2Proof.Proofs
end

section
/-! What a Compressor frame leaves in every field (42 R84 to R87). -/

namespace Sys2Proof.Proofs

open Sys2Proof.Machine Sys2Proof.Safety Sys2Proof.Laws

/-! The entries' writes, each by whether its counter is 0 (R77, R78). -/

theorem enterUp_phaseStart (st : Regs) :
    (enterUp st).phaseStart = if st.phaseStart = 0 then st.frameIndex else st.phaseStart := by
  unfold enterUp; split <;> rfl
theorem enterUp_phaseEnd (st : Regs) : (enterUp st).phaseEnd = if st.phaseStart = 0 then 0 else st.phaseEnd := by
  unfold enterUp; split <;> rfl
theorem enterUp_ceilGain (st : Regs) : (enterUp st).ceilGain = if st.phaseStart = 0 then st.gain else st.ceilGain := by
  unfold enterUp; split <;> rfl
theorem enterDown_phaseEnd (st : Regs) :
    (enterDown st).phaseEnd = if st.phaseEnd = 0 then st.frameIndex else st.phaseEnd := by
  unfold enterDown; split <;> rfl
theorem enterDown_phaseStart (st : Regs) :
    (enterDown st).phaseStart = if st.phaseEnd = 0 then 0 else st.phaseStart := by
  unfold enterDown; split <;> rfl
theorem enterDown_ceilGain (st : Regs) :
    (enterDown st).ceilGain = if st.phaseEnd = 0 then fsub f1 st.ceilGain else st.ceilGain := by
  unfold enterDown; split <;> rfl
theorem enterDown_floorGain (st : Regs) :
    (enterDown st).floorGain = if st.phaseEnd = 0 then st.gain else st.floorGain := by
  unfold enterDown; split <;> rfl

/-- The fields that no branch of a frame writes are the same in both. -/
structure SameOutsideBranch (st st' : Regs) : Prop where
  mode : st'.mode = st.mode
  variant : st'.variant = st.variant
  attack : st'.attack = st.attack
  release : st'.release = st.release
  hold : st'.hold = st.hold
  threshold : st'.threshold = st.threshold
  exp : st'.exp = st.exp
  frameIndex : st'.frameIndex = st.frameIndex
  envelope : st'.envelope = st.envelope

/-- What the UP branch with timer `T` leaves in the fields it writes, and `floorGain` as it was (R77, R75, R79). -/
structure UpFrame (T : U32) (st st' : Regs) : Prop where
  phaseStart : st'.phaseStart = if st.phaseStart = 0 then st.frameIndex else st.phaseStart
  phaseEnd : st'.phaseEnd = if st.phaseStart = 0 then 0 else st.phaseEnd
  floorGain : st'.floorGain = st.floorGain
  gain : (if T = 0 then .ok f1 else
    fmin (fadd st.floorGain (rampQ (elapsedUp st') T)) f1) = Except.ok (ε := Fault) st'.gain
  ceilGain : fmax (if st.phaseStart = 0 then st.gain else st.ceilGain) st'.gain = .ok st'.ceilGain

/-- What the COMP DOWN branch leaves in the fields it writes (R78, R76, R80). -/
structure CompDownFrame (st st' : Regs) : Prop where
  phaseEnd : st'.phaseEnd = if st.phaseEnd = 0 then st.frameIndex else st.phaseEnd
  phaseStart : st'.phaseStart = if st.phaseEnd = 0 then 0 else st.phaseStart
  ceilGain : st'.ceilGain = if st.phaseEnd = 0 then fsub f1 st.ceilGain else st.ceilGain
  gain : (if st.attack = 0 then .ok f0 else
    fmax (fsub (fsub f1 (rampQ (elapsedDown st') st.attack)) st'.ceilGain) f0) = Except.ok (ε := Fault) st'.gain
  floorGain : fmin (if st.phaseEnd = 0 then st.gain else st.floorGain) st'.gain = .ok st'.floorGain

theorem upBranch_follows {T : U32} {st st' : Regs} (h : upBranch T st = .ok st') :
    SameOutsideBranch st st' ∧ UpFrame T st st' := by
  obtain ⟨g, c, hg, hc, rfl⟩ := upBranch_ok h
  rw [enterUp_ceilGain] at hc
  refine ⟨by constructor <;> simp, enterUp_phaseStart st, enterUp_phaseEnd st, enterUp_floorGain st, ?_, hc⟩
  rw [← enterUp_floorGain st]
  exact hg

theorem compDown_follows {st st' : Regs} (h : compDown st = .ok st') :
    SameOutsideBranch st st' ∧ CompDownFrame st st' := by
  obtain ⟨g, f, hg, hf, rfl⟩ := compDown_ok h
  rw [enterDown_floorGain] at hf
  exact ⟨by constructor <;> simp, enterDown_phaseEnd st, enterDown_phaseStart st, enterDown_ceilGain st, hg, hf⟩

theorem compBranch_follows {up : Bool} {st st' : Regs} (h : compBranch up st = .ok st') :
    SameOutsideBranch st st' ∧ if up = true then UpFrame st.release st st' else CompDownFrame st st' := by
  cases up with
  | true => exact upBranch_follows h
  | false => exact compDown_follows h

/-- The select's answer is the comparison of R85. -/
theorem compSelect_ok {st : Regs} {up : Bool} (h : compSelect st = .ok up) :
    up = fltOrdered (fmul st.envelope st.gain) (toF st.threshold.toNat) := by
  obtain ⟨-, -, h⟩ := unlessNaN_ok.1 h
  exact h.symm

/-- Settles O42: completion from the bounds of a legal state; the fields by the branch that the select takes on the state
after FRAME_ADVANCE and ENV_UPDATE. -/
theorem compressorFrameFollowsTheAlgorithm : Obligations.CompressorFrameFollowsTheAlgorithm := by
  refine ⟨fun st s hl hlt => compStep_answers hl hlt s, ?_⟩
  rintro st st' s o h env rfl
  obtain ⟨up, hup, hbranch, ho⟩ := compStep_ok h
  obtain ⟨hsame, hfields⟩ := compBranch_follows hbranch
  refine ⟨hsame.mode, hsame.variant, hsame.attack, hsame.release, hsame.hold, hsame.threshold, hsame.exp,
    hsame.frameIndex, hsame.envelope, ho, ?_⟩
  rw [compSelect_ok hup] at hfields
  split
  · next hlt =>
    obtain ⟨hstart, hend, hfloor, hgain, hceil⟩ := (if_pos hlt).mp hfields
    exact ⟨hstart, hend, hfloor, hgain, hceil⟩
  · next hge =>
    obtain ⟨hend, hstart, hceil, hgain, hfloor⟩ := (if_neg hge).mp hfields
    exact ⟨hend, hstart, hceil, hgain, hfloor⟩

end Sys2Proof.Proofs
end

section
/-! The Gate's phase select in terms of values (43 R91): the comparison of patterns is that of the values they stand for
(00_scope R14), and every `u32` threshold has an exact conversion. -/

namespace Sys2Proof.Proofs

open Sys2Proof.Machine Sys2Proof.Safety Sys2Proof.Laws

theorem fmag_lt_infMag_of_finite {x : F64} (h : isFinite x = true) : fmag x < infMag := of_decide_eq_true h

/-- The order of patterns is that of exact values: magnitude bits grow with what they stand for, and both zeros stand for
nothing. -/
theorem forder_lt_iff_funits_lt {a b : F64} (ha : isFinite a = true) (hb : isFinite b = true) :
    forder a < forder b ↔ funits a < funits b := by
  have hma := (fmag_lt_infMag_of_finite ha).le
  have hmb := (fmag_lt_infMag_of_finite hb).le
  have hab := magUnits_le_iff hma hmb
  have hba := magUnits_le_iff hmb hma
  have hza := magUnits_eq_zero hma
  have hzb := magUnits_eq_zero hmb
  unfold forder funits
  split <;> split <;> omega

theorem value_lt_iff_funits_lt {a b : F64} : value a < value b ↔ funits a < funits b := by
  rw [value, value, div_lt_div_iff_of_pos_right (by positivity), Int.cast_lt]

theorem fltOrdered_of_finite {a b : F64} (ha : isFinite a = true) (hb : isFinite b = true) :
    fltOrdered a b = decide (value a < value b) := by
  simp [fltOrdered, not_special_of_finite ha, not_special_of_finite hb, forder_lt_iff_funits_lt ha hb,
    value_lt_iff_funits_lt]

theorem fgt_of_finite {a b : F64} (ha : isFinite a = true) (hb : isFinite b = true) :
    fgt a b = .ok (decide (value b < value a)) :=
  unlessNaN_ok.2 ⟨(not_special_of_finite ha).2, (not_special_of_finite hb).2, fltOrdered_of_finite hb ha⟩

theorem isFinite_toF_u32 (T : U32) : isFinite (toF T.toNat) = true :=
  isFinite_toF (by have := T.isLt; omega)

/-- A `u32` has at most 32 of the 53 significant bits, so its conversion does not round. -/
theorem value_toF_u32 (T : U32) : value (toF T.toNat) = (T.toNat : ℚ) := by
  have h53 : T.toNat < 2 ^ 53 := by have := T.isLt; omega
  have hone : (oneUnits : ℚ) = 2 ^ 1074 := by rw [oneUnits, Nat.cast_pow, Nat.cast_ofNat]
  rw [value, funits_nonneg (toF_u32_lt_infMag T), toF_units h53, Int.cast_natCast, Nat.cast_mul, hone]
  exact mul_div_cancel_right₀ _ (by positivity)

/-- Settles O41: the select compares finite patterns, and the threshold's pattern has the threshold's value. -/
theorem gateOpensStrictlyAboveTheThreshold : Obligations.GateOpensStrictlyAboveTheThreshold := by
  intro st hfin
  refine ⟨_, fgt_of_finite hfin (isFinite_toF_u32 st.threshold), ?_⟩
  rw [decide_eq_true_iff, value_toF_u32]

end Sys2Proof.Proofs
end

section
/-! A Gate frame (43 R90 to R95): on a legal state it meets no NaN, and what it leaves in every field. The UP branch and the
fields outside the branches are the Compressor's; the DOWN branch adds the hold (R93). -/

namespace Sys2Proof.Proofs

open Sys2Proof.Machine Sys2Proof.Safety Sys2Proof.Laws

/-! The gain of a closing frame, by the hold test of R93. -/

theorem gateDownGain_of_lt {st : Regs} (h : elapsedDown st < st.hold.toNat) : gateDownGain st = .ok st.gain :=
  if_neg (by simpa [holdElapsed] using h)

theorem gateDownGain_of_ge {st : Regs} (h : (st.hold.toNat : Int) ≤ elapsedDown st) :
    gateDownGain st = rampDown st (elapsedDown st - st.hold.toNat) st.release :=
  if_pos (decide_eq_true h)

theorem gateDownGain_eq (st : Regs) :
    gateDownGain st = if elapsedDown st < st.hold.toNat then .ok st.gain
      else rampDown st (elapsedDown st - st.hold.toNat) st.release := by
  split
  · next hlt => exact gateDownGain_of_lt hlt
  · next hge => exact gateDownGain_of_ge (not_lt.mp hge)

/-! Completion. -/

/-- A held gain is the last one; past the hold the ramp runs on a count that is not negative. -/
theorem gateDownGain_answers {st : Regs} (h : InRange st) : ∃ g, gateDownGain st = .ok g ∧ InUnit g := by
  obtain ⟨d, hd, hle⟩ := elapsedDown_eq_natCast h
  rcases lt_or_ge (elapsedDown st) st.hold.toNat with hlt | hge
  · exact ⟨st.gain, gateDownGain_of_lt hlt, h.gain⟩
  · have hcount : elapsedDown st - st.hold.toNat = ((d - st.hold.toNat : Nat) : Int) := by omega
    rw [gateDownGain_of_ge hge, hcount]
    exact rampDown_answers st.release h.ceilGain (by omega)

theorem gateDown_answers {st : Regs} (h : InRange st) : ∃ st', gateDown st = .ok st' ∧ InUnit st'.gain := by
  have hin := enterDown_inRange h
  obtain ⟨g, hgain, hg⟩ := gateDownGain_answers hin
  obtain ⟨f, htrack⟩ := trackDown_answers (st := { enterDown st with gain := g }) hin.floorGain hg
  exact ⟨{ enterDown st with gain := g, floorGain := f }, bind_eq_ok.2 ⟨g, hgain, htrack⟩, hg⟩

theorem gateBranch_answers {st : Regs} (up : Bool) (h : InRange st) :
    ∃ st', gateBranch up st = .ok st' ∧ InUnit st'.gain := by
  cases up with
  | true => exact upBranch_answers st.attack h
  | false => exact gateDown_answers h

theorem gateSelect_answers {st : Regs} (henv : st.envelope.toNat < infMag) : ∃ up, gateSelect st = .ok up :=
  ⟨_, unlessNaN_ok.2 ⟨isNaN_nonneg henv, isNaN_nonneg (toF_u32_lt_infMag _), rfl⟩⟩

theorem gateStep_answers {st : Regs} (h : Legal st) (hlt : st.frameIndex.toNat < 2 ^ 64 - 1) (s : Sample) :
    ∃ r, gateStep st s = .ok r := by
  obtain ⟨up, hup⟩ := gateSelect_answers (st := envUpdate s (frameAdvance st))
    (nextEnvelope_lt_infMag h.exp.2 h.envelope s)
  obtain ⟨st', hst', hg⟩ := gateBranch_answers up (frameAdvance_inRange h hlt s)
  obtain ⟨o, ho⟩ := applyGain_answers hg s
  exact ⟨(st', o), bind_eq_ok.2 ⟨up, hup, bind_eq_ok.2 ⟨st', hst', bind_eq_ok.2 ⟨o, ho, rfl⟩⟩⟩⟩

/-! The fields. -/

/-- What the GATE DOWN branch leaves in the fields it writes (R78, R93, R94). -/
structure GateDownFrame (st st' : Regs) : Prop where
  phaseEnd : st'.phaseEnd = if st.phaseEnd = 0 then st.frameIndex else st.phaseEnd
  phaseStart : st'.phaseStart = if st.phaseEnd = 0 then 0 else st.phaseStart
  ceilGain : st'.ceilGain = if st.phaseEnd = 0 then fsub f1 st.ceilGain else st.ceilGain
  gain : (if elapsedDown st' < st.hold.toNat then .ok st.gain
    else if st.release = 0 then .ok f0
    else fmax (fsub (fsub f1 (rampQ (elapsedDown st' - st.hold.toNat) st.release)) st'.ceilGain) f0) =
      Except.ok (ε := Fault) st'.gain
  floorGain : fmin (if st.phaseEnd = 0 then st.gain else st.floorGain) st'.gain = .ok st'.floorGain

theorem gateDown_follows {st st' : Regs} (h : gateDown st = .ok st') :
    SameOutsideBranch st st' ∧ GateDownFrame st st' := by
  obtain ⟨g, f, hg, hf, rfl⟩ := gateDown_ok h
  rw [enterDown_floorGain] at hf
  rw [gateDownGain_eq, enterDown_hold, enterDown_gain, enterDown_release] at hg
  exact ⟨by constructor <;> simp, enterDown_phaseEnd st, enterDown_phaseStart st, enterDown_ceilGain st, hg, hf⟩

theorem gateBranch_follows {up : Bool} {st st' : Regs} (h : gateBranch up st = .ok st') :
    SameOutsideBranch st st' ∧ if up = true then UpFrame st.attack st st' else GateDownFrame st st' := by
  cases up with
  | true => exact upBranch_follows h
  | false => exact gateDown_follows h

/-- The select's answer is the comparison of R91. -/
theorem gateSelect_ok {st : Regs} {up : Bool} (h : gateSelect st = .ok up) :
    up = fgtOrdered st.envelope (toF st.threshold.toNat) := by
  obtain ⟨-, -, h⟩ := unlessNaN_ok.1 h
  exact h.symm

/-- Settles O43: completion from the bounds of a legal state; the fields by the branch that the select takes on the state
after FRAME_ADVANCE and ENV_UPDATE. -/
theorem gateFrameFollowsTheAlgorithm : Obligations.GateFrameFollowsTheAlgorithm := by
  refine ⟨fun st s hl hlt => gateStep_answers hl hlt s, ?_⟩
  rintro st st' s o h env rfl
  obtain ⟨up, hup, hbranch, ho⟩ := gateStep_ok h
  obtain ⟨hsame, hfields⟩ := gateBranch_follows hbranch
  refine ⟨hsame.mode, hsame.variant, hsame.attack, hsame.release, hsame.hold, hsame.threshold, hsame.exp,
    hsame.frameIndex, hsame.envelope, ho, ?_⟩
  rw [gateSelect_ok hup] at hfields
  split
  · next hopen =>
    obtain ⟨hstart, hend, hfloor, hgain, hceil⟩ := (if_pos hopen).mp hfields
    exact ⟨hstart, hend, hfloor, hgain, hceil⟩
  · next hclosed =>
    obtain ⟨hend, hstart, hceil, hgain, hfloor⟩ := (if_neg hclosed).mp hfields
    exact ⟨hend, hstart, hceil, hgain, hfloor⟩

end Sys2Proof.Proofs
end

section
/-! EXP_VALID (45_host_commands R105) in terms of values. By the kind of the pattern: a NaN fails the comparison with 0.0, an
infinity fails one of the two by its sign, and on a finite pattern the two comparisons are those of its value. -/

namespace Sys2Proof.Proofs

open Sys2Proof.Machine Sys2Proof.Safety Sys2Proof.Laws

theorem value_f0 : value f0 = 0 := by
  have hzero : funits f0 = 0 := by decide
  rw [value, hzero, Int.cast_zero, zero_div]

theorem value_f1 : value f1 = 1 := by
  have hone : funits f1 = (2 ^ 1074 : Nat) := by rw [funits, if_neg (by decide), magUnits_one, oneUnits]
  rw [value, hone, Int.cast_natCast, Nat.cast_pow, Nat.cast_ofNat]
  exact div_self (by positivity)

theorem isFinite_of_inUnit {x : F64} (h : InUnit x) : isFinite x = true :=
  have hlt := lt_infMag_of_inUnit h
  decide_eq_true ((fmag_nonneg hlt).trans_lt hlt)

/-- EXP_VALID as R105 writes it. -/
theorem expValid_iff_compare {e : F64} : expValid e = true ↔ fgtOrdered e f0 = true ∧ fgtOrdered e f1 = false := by
  rw [expValid, Bool.and_eq_true, Bool.not_eq_true']

theorem expValid_of_isNaN {e : F64} (h : isNaN e = true) : expValid e = false := by
  simp [expValid, fgtOrdered, fltOrdered, h]

/-- Positive infinity is above 1.0, negative infinity is not above 0.0. -/
theorem expValid_of_isInf {e : F64} (h : isInf e = true) : expValid e = false := by
  have hmag : fmag e = infMag := of_decide_eq_true h
  cases hneg : fneg e with
  | false =>
    have hpat : e.toNat = infMag := (fmag_of_nonneg ((fneg_false_iff e).1 hneg)).symm.trans hmag
    have habove : fgtOrdered e f1 = true := by
      rw [fgtOrdered, fltOrdered_of_le infMag_finite_lt_f1.le hpat.le, hpat]
      exact decide_eq_true infMag_finite_lt_f1
    simp [expValid, habove]
  | true =>
    have hbelow : forder e ≤ forder f0 := by
      have hzero : forder f0 = 0 := by decide
      rw [forder, if_pos hneg, hzero]
      omega
    simp [expValid, fgtOrdered, fltOrdered, hbelow]

theorem expValid_of_isFinite {e : F64} (h : isFinite e = true) : expValid e = true ↔ 0 < value e ∧ value e ≤ 1 := by
  rw [expValid_iff_compare, fgtOrdered, fgtOrdered, fltOrdered_of_finite (isFinite_of_inUnit inUnit_f0) h,
    fltOrdered_of_finite (isFinite_of_inUnit inUnit_f1) h, value_f0, value_f1, decide_eq_true_iff,
    decide_eq_false_iff_not, not_lt]

/-- The range of R105, over every pattern. -/
theorem expValid_iff {e : F64} : expValid e = true ↔ isFinite e = true ∧ 0 < value e ∧ value e ≤ 1 := by
  rcases kinds e with ⟨hfin, -, -⟩ | ⟨hfin, hinf, -⟩ | ⟨hfin, -, hnan⟩
  · rw [expValid_of_isFinite hfin, and_iff_right hfin]
  · simp [expValid_of_isInf hinf, hfin]
  · simp [expValid_of_isNaN hnan, hfin]

/-- A construction whose check of `exp` fails raises INVALID_PARAMETER and writes nothing (R103, R104). -/
theorem constructWith_of_not_expValid {v : Variant} {a r h t : U32} {exp : Option F64} {s : State}
    (he : expValid (expOperand exp) = false) :
    constructWith v a r h t exp s = .next (raiseStatus .invalidParameter s) :=
  if_neg (by simp [he])

/-- Settles O3: the range by the kind of the pattern; both callers are the construction whose check failed. -/
theorem expValidExactlyInZeroToOne : Obligations.ExpValidExactlyInZeroToOne :=
  fun _ => ⟨expValid_iff, expValid_iff_compare, fun _ _ _ _ _ he =>
    ⟨constructWith_of_not_expValid he, constructWith_of_not_expValid he⟩⟩

end Sys2Proof.Proofs
end

section
/-! The commands other than the constructions (45_host_commands R106 to R115), by the checks they make: what each leaves or
answers once its mode check, and for the HOLD commands its variant check, has passed or failed. GET and SET are said once for
every register, through `getInstr` and `setInstr`. -/

namespace Sys2Proof.Proofs

open Sys2Proof.Machine Sys2Proof.Safety Sys2Proof.Laws

theorem encode_getInstr (r : ParamReg) : encode (getInstr r) = leBytes32 (commandHeader (.get r)) := by
  cases r <;> rfl

theorem encode_setInstr (v : U32) (r : ParamReg) :
    encode (setInstr v r) = leBytes32 (commandHeader (.set r)) ++ leBytes32 v := by
  cases r <;> rfl

/-- Every command but a construction checks `mode` first (R122). -/
theorem exec_of_uninit {i : Instr} {s : State} (hi : constructs i = false) (hm : s.regs.mode = .uninit) :
    exec i s = .next (raiseStatus .notInitialised s) := by
  cases i with
  | initC => cases hi
  | initG => cases hi
  | _ => exact whenReady_uninit hm

/-! A register that the variant has: `hold` is one on a GATE only. -/

theorem exec_getInstr_of_ready {r : ParamReg} {s : State} (hm : s.regs.mode = .ready)
    (hv : r = .hold → s.regs.variant = .gate) :
    exec (getInstr r) s = .next (respondOk (paramPayload r s.regs) s) := by
  cases r with
  | hold => exact (whenReady_ready hm).trans (whenGate_gate (hv rfl))
  | _ => exact whenReady_ready hm

theorem exec_setInstr_of_ready {v : U32} {r : ParamReg} {s : State} (hm : s.regs.mode = .ready)
    (hv : r = .hold → s.regs.variant = .gate) :
    exec (setInstr v r) s = .next (respondOk [] { s with regs := writeParam r v s.regs }) := by
  cases r with
  | hold => exact (whenReady_ready hm).trans (whenGate_gate (hv rfl))
  | _ => exact whenReady_ready hm

/-! `hold` on a COMP (R110, R114). -/

theorem exec_getHold_of_comp {s : State} (hm : s.regs.mode = .ready) (hv : s.regs.variant = .comp) :
    exec .getHold s = .next (raiseStatus .illegalCommand s) :=
  (whenReady_ready hm).trans (whenGate_comp hv)

theorem exec_setHold_of_comp {v : U32} {s : State} (hm : s.regs.mode = .ready) (hv : s.regs.variant = .comp) :
    exec (.setHold v) s = .next (raiseStatus .illegalCommand s) :=
  (whenReady_ready hm).trans (whenGate_comp hv)

/-- Settles O17: the mode and length checks pass, and the counter bound of R107 is what FEED tests next. -/
theorem counterOverflowIsRefused : Obligations.CounterOverflowIsRefused := by
  intro data s hm heven hover
  have hlength : ¬ checkLength data.length = false := by simp [checkLength, heven]
  exact (whenReady_ready hm).trans ((if_neg hlength).trans (if_pos hover))

/-- Settles O19: the four registers of `getInstr`, and the checks that fail. -/
theorem getAnswersItsRegister : Obligations.GetAnswersItsRegister :=
  ⟨encode_getInstr .attack, encode_getInstr .release, encode_getInstr .hold, encode_getInstr .threshold, fun _ =>
    ⟨fun hm =>
      ⟨exec_getInstr_of_ready (r := .attack) hm nofun, exec_getInstr_of_ready (r := .release) hm nofun,
        exec_getInstr_of_ready (r := .threshold) hm nofun,
        fun hv => exec_getInstr_of_ready (r := .hold) hm fun _ => hv, exec_getHold_of_comp hm⟩,
      fun hm => ⟨exec_of_uninit rfl hm, exec_of_uninit rfl hm, exec_of_uninit rfl hm, exec_of_uninit rfl hm⟩⟩⟩

/-- Settles O20: the four registers of `setInstr`, and the checks that fail. -/
theorem setWritesOnlyItsRegister : Obligations.SetWritesOnlyItsRegister :=
  fun v _ =>
    ⟨encode_setInstr v .attack, encode_setInstr v .release, encode_setInstr v .hold, encode_setInstr v .threshold,
      fun hm =>
        ⟨exec_setInstr_of_ready (r := .attack) hm nofun, exec_setInstr_of_ready (r := .release) hm nofun,
          exec_setInstr_of_ready (r := .threshold) hm nofun,
          fun hv => exec_setInstr_of_ready (r := .hold) hm fun _ => hv, exec_setHold_of_comp hm⟩,
      fun hm => ⟨exec_of_uninit rfl hm, exec_of_uninit rfl hm, exec_of_uninit rfl hm, exec_of_uninit rfl hm⟩⟩

end Sys2Proof.Proofs
end

section
/-! The errors of 60_exceptions. A command ends in one of two ways, `OkOrRaised`: it responds OK, or one of its checks
(of mode, variant, length or `exp`, R119 to R122) raises an error on the state it started from. R123 is read off from
there. -/

namespace Sys2Proof.Proofs

open Sys2Proof.Machine Sys2Proof.Safety Sys2Proof.Laws

/-- A construction whose check of `exp` passes runs CONSTRUCT and answers OK (R103, R104). -/
theorem constructWith_of_expValid {v : Variant} {a r h t : U32} {exp : Option F64} {s : State}
    (he : expValid (expOperand exp) = true) :
    constructWith v a r h t exp s = .next (respondOk [] { s with regs := construct v a r h t (expOperand exp) }) :=
  if_pos he

/-- EXP_DEFAULT passes the check that R103 and R104 make of it. -/
theorem expValid_expOperand_none : expValid (expOperand none) = true := by decide

/-- Settles O4: a bad `exp` fails the check in both constructions; EXP_DEFAULT passes it, and CONSTRUCT writes the
operands. -/
theorem initRejectsABadExp : Obligations.InitRejectsABadExp := by
  intro a h r t s
  refine ⟨fun e hbad => ?_,
    ⟨_, constructWith_of_expValid expValid_expOperand_none, rfl, rfl, rfl, rfl⟩,
    ⟨_, constructWith_of_expValid expValid_expOperand_none, rfl, rfl, rfl, rfl, rfl⟩⟩
  have hinvalid : expValid (expOperand (some e)) = false := Bool.eq_false_iff.2 (mt expValid_iff.1 hbad)
  exact ⟨constructWith_of_not_expValid hinvalid, constructWith_of_not_expValid hinvalid⟩

/-- Settles O14: the mode check is the first thing such a command does. -/
theorem nothingRunsBeforeConstruction : Obligations.NothingRunsBeforeConstruction :=
  fun _ _ => exec_of_uninit

/-- The length check of FEED comes next after the mode check (R119, R124). -/
theorem exec_feed_of_odd {data : List Byte} {s : State} (hm : s.regs.mode = .ready) (hodd : data.length % 2 = 1) :
    exec (.feed data) s = .next (raiseStatus .invalidBufferLength s) := by
  have hlength : checkLength data.length = false := by simp [checkLength, hodd]
  exact (whenReady_ready hm).trans (if_pos hlength)

/-- Settles O16: in READY the length check fails, in UNINIT the mode check already has. -/
theorem oddFeedIsRejectedWhole : Obligations.OddFeedIsRejectedWhole :=
  fun _ _ hodd => ⟨fun hm => exec_feed_of_odd hm hodd, exec_of_uninit rfl⟩

/-- The two ways in which a command run from `s` ends in `t`: an OK response, or the error entry on `s` itself. -/
def OkOrRaised (s t : State) : Prop :=
  (∃ payload u, t = respondOk payload u) ∨ ∃ e, e ≠ .ok ∧ t = raiseStatus e s

theorem okOrRaised_respondOk (s : State) (payload : List Byte) (u : State) : OkOrRaised s (respondOk payload u) :=
  .inl ⟨payload, u, rfl⟩

theorem okOrRaised_raiseStatus (s : State) {e : Status} (he : e ≠ .ok) : OkOrRaised s (raiseStatus e s) :=
  .inr ⟨e, he, rfl⟩

theorem statusCode_mem_errors {e : Status} (he : e ≠ .ok) :
    [statusCode e] ∈ [[0x01#8], [0x02#8], [0x03#8], [0x04#8]] := by
  cases e with
  | ok => exact absurd rfl he
  | _ => decide

theorem whenReady_okOrRaised {s t : State} {act : Host.Outcome State Fault Refusal} (h : whenReady s act = .next t)
    (hact : act = .next t → OkOrRaised s t) : OkOrRaised s t := by
  rcases whenReady_next h with ⟨-, rfl⟩ | ⟨-, h⟩
  · exact okOrRaised_raiseStatus s nofun
  · exact hact h

theorem whenGate_okOrRaised {s t : State} {act : Host.Outcome State Fault Refusal} (h : whenGate s act = .next t)
    (hact : act = .next t → OkOrRaised s t) : OkOrRaised s t := by
  rcases whenGate_next h with ⟨-, rfl⟩ | ⟨-, h⟩
  · exact okOrRaised_raiseStatus s nofun
  · exact hact h

theorem next_respondOk_okOrRaised {s t u : State} {payload : List Byte}
    (h : (.next (respondOk payload u) : Host.Outcome State Fault Refusal) = .next t) : OkOrRaised s t := by
  cases h
  exact okOrRaised_respondOk s payload u

theorem constructWith_okOrRaised {v : Variant} {a r h t : U32} {exp : Option F64} {s u : State}
    (hu : constructWith v a r h t exp s = .next u) : OkOrRaised s u := by
  rcases constructWith_next hu with ⟨-, rfl⟩ | ⟨-, rfl⟩
  · exact okOrRaised_respondOk s _ _
  · exact okOrRaised_raiseStatus s nofun

theorem execFeed_okOrRaised {data : List Byte} {s t : State} (h : execFeed data s = .next t) : OkOrRaised s t := by
  rcases execFeed_next h with ⟨-, rfl⟩ | ⟨-, -, rfl⟩ | ⟨-, -, -, st, out, -, rfl⟩
  · exact okOrRaised_raiseStatus s nofun
  · exact okOrRaised_raiseStatus s nofun
  · exact okOrRaised_respondOk s _ _

/-- Every command ends in one of the two ways, by the checks it makes: those of a construction, those of FEED, the mode
and variant checks of the HOLD commands, the mode check of the other parameter commands. -/
theorem exec_okOrRaised {i : Instr} {s t : State} (h : exec i s = .next t) : OkOrRaised s t := by
  cases i with
  | initC => exact constructWith_okOrRaised h
  | initG => exact constructWith_okOrRaised h
  | feed => exact execFeed_okOrRaised h
  | getHold => exact whenReady_okOrRaised h fun h => whenGate_okOrRaised h next_respondOk_okOrRaised
  | setHold => exact whenReady_okOrRaised h fun h => whenGate_okOrRaised h next_respondOk_okOrRaised
  | _ => exact whenReady_okOrRaised h next_respondOk_okOrRaised

/-- With bytes at the port a step ends in one of the two ways, on the state with the command's bytes read. -/
theorem step_okOrRaised {s t : State} (hport : s.port ≠ []) (h : step s = .next t) :
    ∃ rest, OkOrRaised { s with port := rest } t := by
  rcases step_next h with ⟨hnil, -⟩ | ⟨i, rest, -, hexec⟩ | ⟨-, rest, -, rfl⟩
  · exact absurd hnil hport
  · exact ⟨rest, exec_okOrRaised hexec⟩
  · exact ⟨rest, okOrRaised_raiseStatus _ nofun⟩

/-- Settles O18: the step responds OK, or it is the error entry, which keeps the registers and reports its code alone. -/
theorem errorsLeaveNoTrace : Obligations.ErrorsLeaveNoTrace := by
  intro s t hport h
  obtain ⟨rest, ⟨payload, u, rfl⟩ | ⟨e, he, rfl⟩⟩ := step_okOrRaised hport h
  · exact .inl ⟨payload, respondOk_response payload u⟩
  · exact .inr ⟨raiseStatus_regs e _, statusCode_mem_errors he⟩

end Sys2Proof.Proofs
end

section
/-! The constructions (45_host_commands R103, R104) as 70_reset_and_hazards has them. INIT.C and INIT.G are one operation,
`constructWith`, at two variants: when `exp` passes its check the next state is built from the operands and the port alone
(R135, R138), and otherwise the instance is kept. -/

namespace Sys2Proof.Proofs

open Sys2Proof.Machine Sys2Proof.Safety Sys2Proof.Laws

theorem phase_of_zero {st : Regs} (hs : st.phaseStart = 0) (he : st.phaseEnd = 0) : phase st = .none :=
  (if_neg (not_not_intro hs)).trans (if_neg (not_not_intro he))

/-- An omitted `exp` is EXP_DEFAULT (R10). -/
theorem expOperand_eq_getD (exp : Option F64) : expOperand exp = exp.getD 0x3FECCCCCCCCCCCCD#64 := by
  cases exp with
  | none => rfl
  | some e => rfl

/-- Settles O2: the range of R105 is the check of `exp` that both constructions make, and CONSTRUCT writes the fields. -/
theorem initConstructsTheInstance : Obligations.InitConstructsTheInstance := by
  refine ⟨fun st => phase_of_zero, fun a h r t exp s hfin hpos hle => ?_⟩
  rw [← expOperand_eq_getD] at hfin hpos hle ⊢
  have hvalid : expValid (expOperand exp) = true := expValid_iff.2 ⟨hfin, hpos, hle⟩
  exact ⟨constructWith_of_expValid hvalid, constructWith_of_expValid hvalid⟩

/-- The commands that run CONSTRUCT are `constructWith` at their own variant and operands. -/
theorem exec_of_constructs {i : Instr} (hi : constructs i = true) :
    ∃ v a r h t exp, ∀ s, exec i s = constructWith v a r h t exp s := by
  cases i with
  | initC a r t exp => exact ⟨.comp, a, r, 0, t, exp, fun _ => rfl⟩
  | initG a h r t exp => exact ⟨.gate, a, r, h, t, exp, fun _ => rfl⟩
  | _ => cases hi

section
variable {v : Variant} {a r h t : U32} {exp : Option F64} {s u : State}

/-- Only a construction whose check of `exp` passed answers OK. -/
theorem constructWith_ok (hu : constructWith v a r h t exp s = .next u) (hok : u.response = [0x00#8]) :
    expValid (expOperand exp) = true ∧ u = respondOk [] { s with regs := construct v a r h t (expOperand exp) } := by
  rcases constructWith_next hu with hvalid | ⟨-, rfl⟩
  · exact hvalid
  · rw [raiseStatus_response] at hok
    exact absurd hok (by decide)

/-- Any other answer is the error entry on the old state. -/
theorem constructWith_not_ok (hu : constructWith v a r h t exp s = .next u) (hok : u.response ≠ [0x00#8]) :
    u = raiseStatus .invalidParameter s := by
  rcases constructWith_next hu with ⟨-, rfl⟩ | ⟨-, hraised⟩
  · exact absurd (respondOk_response [] _) hok
  · exact hraised

theorem constructWith_ok_regs (hu : constructWith v a r h t exp s = .next u) (hok : u.response = [0x00#8]) :
    u.regs = construct v a r h t (exp.getD 0x3FECCCCCCCCCCCCD#64) := by
  obtain ⟨-, rfl⟩ := constructWith_ok hu hok
  rw [respondOk_regs, expOperand_eq_getD]

/-- A construction that answers OK takes nothing but the port from the state it starts from. -/
theorem constructWith_ok_of_port_eq {s' : State} (hu : constructWith v a r h t exp s = .next u)
    (hok : u.response = [0x00#8]) (hport : s'.port = s.port) : constructWith v a r h t exp s' = .next u := by
  obtain ⟨hvalid, rfl⟩ := constructWith_ok hu hok
  rw [constructWith_of_expValid hvalid, hport]
  rfl

end

/-- Settles O5: both commands are `constructWith`, whose next state on OK has only the port of the old one, and on any
other answer is the error entry of INVALID_PARAMETER. -/
theorem initKeepsNothingOrEverything : Obligations.InitKeepsNothingOrEverything := by
  refine ⟨fun i s t hi hexec => ?_, fun a h r th exp s t => ⟨constructWith_ok_regs, constructWith_ok_regs⟩⟩
  obtain ⟨v, a, r, h, th, exp, hconstruct⟩ := exec_of_constructs hi
  rw [hconstruct] at hexec
  refine ⟨fun hok s' hport => ?_, fun hok => ?_⟩
  · exact (hconstruct s').trans (constructWith_ok_of_port_eq hexec hok hport)
  · obtain rfl := constructWith_not_ok hexec hok
    exact ⟨raiseStatus_regs _ s, raiseStatus_response _ s⟩

end Sys2Proof.Proofs
end

section
/-! The decoder (30_encoding R56 to R65). Each field reader answers exactly on the bytes that the encoder writes for the
value it answers, and so a byte string decodes to a command and a rest exactly when it is the command's encoding followed by
the rest: `decode_eq_ok_iff`. That nothing shorter decodes follows from it. -/

namespace Sys2Proof.Proofs

open Sys2Proof.Machine Sys2Proof.Safety Sys2Proof.Laws

/-! The field readers. -/

/-- The bytes of a word are the four it was put together from. -/
theorem leBytes32_append (b0 b1 b2 b3 : Byte) : leBytes32 (b3 ++ b2 ++ b1 ++ b0) = [b0, b1, b2, b3] := by
  have h0 : (b3 ++ b2 ++ b1 ++ b0).extractLsb' 0 8 = b0 := BitVec.extractLsb'_append_eq_right
  have h1 : (b3 ++ b2 ++ b1 ++ b0).extractLsb' 8 8 = b1 := by
    rw [BitVec.extractLsb'_append_eq_of_le (by omega)]
    exact BitVec.extractLsb'_append_eq_right
  have h2 : (b3 ++ b2 ++ b1 ++ b0).extractLsb' 16 8 = b2 := by
    rw [BitVec.extractLsb'_append_eq_of_le (by omega), BitVec.extractLsb'_append_eq_of_le (by omega)]
    exact BitVec.extractLsb'_append_eq_right
  have h3 : (b3 ++ b2 ++ b1 ++ b0).extractLsb' 24 8 = b3 := by
    rw [BitVec.extractLsb'_append_eq_of_le (by omega), BitVec.extractLsb'_append_eq_of_le (by omega),
      BitVec.extractLsb'_append_eq_of_le (by omega)]
    exact BitVec.extractLsb'_eq_self
  rw [leBytes32, h0, h1, h2, h3]

theorem takeU32_eq_some_iff {bs rest : List Byte} {w : U32} :
    takeU32 bs = some (w, rest) ↔ bs = leBytes32 w ++ rest := by
  constructor
  · intro h
    unfold takeU32 at h
    split at h
    · cases h
      rw [leBytes32_append]
      rfl
    · cases h
  · rintro rfl
    exact takeU32_leBytes32 w rest

theorem leBytes64_append (hi lo : U32) : leBytes64 (hi ++ lo) = leBytes32 lo ++ leBytes32 hi := by
  have hlo : (hi ++ lo).extractLsb' 0 32 = lo := BitVec.extractLsb'_append_eq_right
  have hhi : (hi ++ lo).extractLsb' 32 32 = hi := BitVec.extractLsb'_append_eq_left
  rw [leBytes64, hlo, hhi]

theorem takeF64_eq_some_iff {bs rest : List Byte} {e : F64} :
    takeF64 bs = some (e, rest) ↔ bs = leBytes64 e ++ rest := by
  constructor
  · intro h
    obtain ⟨⟨lo, bs1⟩, h1, h⟩ := Option.bind_eq_some_iff.1 h
    obtain ⟨⟨hi, bs2⟩, h2, h⟩ := Option.bind_eq_some_iff.1 h
    cases h
    rw [takeU32_eq_some_iff.1 h1, takeU32_eq_some_iff.1 h2, leBytes64_append, List.append_assoc]
  · rintro rfl
    exact takeF64_leBytes64 e rest

/-- The flag D of the header says whether the operand is there (R57). -/
theorem takeExp_eq_some_iff {d : Bool} {bs rest : List Byte} {e : Option F64} :
    takeExp d bs = some (e, rest) ↔ e.isNone = d ∧ bs = expBytes e ++ rest := by
  constructor
  · intro h
    cases d with
    | true =>
      cases h
      exact ⟨rfl, rfl⟩
    | false =>
      obtain ⟨⟨e, bs1⟩, h1, h⟩ := Option.bind_eq_some_iff.1 h
      cases h
      exact ⟨rfl, takeF64_eq_some_iff.1 h1⟩
  · rintro ⟨rfl, rfl⟩
    exact takeExp_expBytes e rest

/-! The operands. -/

/-- The command that an instruction's header names (R58, R59). -/
def commandOf : Instr → Command
  | .initC _ _ _ e => .initC e.isNone
  | .initG _ _ _ _ e => .initG e.isNone
  | .feed _ => .feed
  | .getAttack => .get .attack
  | .getRelease => .get .release
  | .getHold => .get .hold
  | .getThreshold => .get .threshold
  | .setAttack _ => .set .attack
  | .setRelease _ => .set .release
  | .setHold _ => .set .hold
  | .setThreshold _ => .set .threshold

/-- The bytes after the header (R60). -/
def operandBytes : Instr → List Byte
  | .initC a r t e => leBytes32 a ++ leBytes32 r ++ leBytes32 t ++ expBytes e
  | .initG a h r t e => leBytes32 a ++ leBytes32 h ++ leBytes32 r ++ leBytes32 t ++ expBytes e
  | .feed data => leBytes32 (BitVec.ofNat 32 data.length) ++ data
  | .setAttack v => leBytes32 v
  | .setRelease v => leBytes32 v
  | .setHold v => leBytes32 v
  | .setThreshold v => leBytes32 v
  | .getAttack => []
  | .getRelease => []
  | .getHold => []
  | .getThreshold => []

theorem encode_eq_header_operands (i : Instr) : encode i = leBytes32 (commandHeader (commandOf i)) ++ operandBytes i := by
  cases i <;> simp only [encode, operandBytes, List.append_assoc, List.append_nil] <;> rfl

theorem commandOf_getInstr (p : ParamReg) : commandOf (getInstr p) = .get p := by cases p <;> rfl

theorem operandBytes_getInstr (p : ParamReg) : operandBytes (getInstr p) = [] := by cases p <;> rfl

theorem wellFormed_getInstr (p : ParamReg) : wellFormed (getInstr p) = true := by cases p <;> rfl

theorem commandOf_setInstr (v : U32) (p : ParamReg) : commandOf (setInstr v p) = .set p := by cases p <;> rfl

theorem operandBytes_setInstr (v : U32) (p : ParamReg) : operandBytes (setInstr v p) = leBytes32 v := by
  cases p <;> rfl

theorem wellFormed_setInstr (v : U32) (p : ParamReg) : wellFormed (setInstr v p) = true := by cases p <;> rfl

theorem wellFormed_feed_iff {data : List Byte} : wellFormed (.feed data) = true ↔ data.length < 2 ^ 32 := by
  rw [wellFormed, decide_eq_true_iff, show config.maxFeedBytes = 2 ^ 32 - 1 from rfl]
  omega

/-- The length field of a FEED cuts off its data. -/
theorem feed_length_field {n : U32} {bs : List Byte} (h : n.toNat ≤ bs.length) :
    (bs.take n.toNat).length < 2 ^ 32 ∧ BitVec.ofNat 32 (bs.take n.toNat).length = n := by
  rw [List.length_take, min_eq_left h]
  exact ⟨n.isLt, (BitVec.ofNat_toNat 32 n).trans (BitVec.setWidth_eq n)⟩

/-- Reading the operands that were written. -/
theorem decodeOperands_operandBytes {i : Instr} (hw : wellFormed i = true) (rest : List Byte) :
    decodeOperands (commandOf i) (operandBytes i ++ rest) = some (i, rest) := by
  cases i with
  | initC a r t e =>
    simp [commandOf, operandBytes, decodeOperands, takeU32_leBytes32, takeExp_expBytes]
  | initG a h r t e =>
    simp [commandOf, operandBytes, decodeOperands, takeU32_leBytes32, takeExp_expBytes]
  | feed data =>
    have hlen : (BitVec.ofNat 32 data.length).toNat = data.length :=
      (BitVec.toNat_ofNat _ _).trans (Nat.mod_eq_of_lt (wellFormed_feed_iff.1 hw))
    simp [commandOf, operandBytes, decodeOperands, takeU32_leBytes32, hlen]
  | setAttack v => simp [commandOf, operandBytes, decodeOperands, takeU32_leBytes32, setInstr]
  | setRelease v => simp [commandOf, operandBytes, decodeOperands, takeU32_leBytes32, setInstr]
  | setHold v => simp [commandOf, operandBytes, decodeOperands, takeU32_leBytes32, setInstr]
  | setThreshold v => simp [commandOf, operandBytes, decodeOperands, takeU32_leBytes32, setInstr]
  | _ => rfl

/-- What was read is what stood there. -/
theorem eq_of_decodeOperands {c : Command} {bs rest : List Byte} {i : Instr}
    (h : decodeOperands c bs = some (i, rest)) :
    commandOf i = c ∧ wellFormed i = true ∧ bs = operandBytes i ++ rest := by
  cases c with
  | initC d =>
    obtain ⟨⟨a, bs1⟩, ha, h⟩ := Option.bind_eq_some_iff.1 h
    obtain ⟨⟨r, bs2⟩, hr, h⟩ := Option.bind_eq_some_iff.1 h
    obtain ⟨⟨t, bs3⟩, ht, h⟩ := Option.bind_eq_some_iff.1 h
    obtain ⟨⟨e, bs4⟩, he, h⟩ := Option.bind_eq_some_iff.1 h
    obtain ⟨hd, hb⟩ := takeExp_eq_some_iff.1 he
    cases h
    refine ⟨congrArg Command.initC hd, rfl, ?_⟩
    rw [takeU32_eq_some_iff.1 ha, takeU32_eq_some_iff.1 hr, takeU32_eq_some_iff.1 ht, hb]
    simp only [operandBytes, List.append_assoc]
  | initG d =>
    obtain ⟨⟨a, bs1⟩, ha, h⟩ := Option.bind_eq_some_iff.1 h
    obtain ⟨⟨hold, bs2⟩, hh, h⟩ := Option.bind_eq_some_iff.1 h
    obtain ⟨⟨r, bs3⟩, hr, h⟩ := Option.bind_eq_some_iff.1 h
    obtain ⟨⟨t, bs4⟩, ht, h⟩ := Option.bind_eq_some_iff.1 h
    obtain ⟨⟨e, bs5⟩, he, h⟩ := Option.bind_eq_some_iff.1 h
    obtain ⟨hd, hb⟩ := takeExp_eq_some_iff.1 he
    cases h
    refine ⟨congrArg Command.initG hd, rfl, ?_⟩
    rw [takeU32_eq_some_iff.1 ha, takeU32_eq_some_iff.1 hh, takeU32_eq_some_iff.1 hr, takeU32_eq_some_iff.1 ht, hb]
    simp only [operandBytes, List.append_assoc]
  | feed =>
    obtain ⟨⟨n, bs1⟩, hn, h⟩ := Option.bind_eq_some_iff.1 h
    by_cases hle : n.toNat ≤ bs1.length
    · cases (if_pos hle).symm.trans h
      obtain ⟨hlt, hfield⟩ := feed_length_field hle
      refine ⟨rfl, wellFormed_feed_iff.2 hlt, ?_⟩
      rw [takeU32_eq_some_iff.1 hn, operandBytes, hfield, List.append_assoc, List.take_append_drop]
    · cases (if_neg hle).symm.trans h
  | get p =>
    cases h
    exact ⟨commandOf_getInstr p, wellFormed_getInstr p, by rw [operandBytes_getInstr, List.nil_append]⟩
  | set p =>
    obtain ⟨⟨v, bs1⟩, hv, h⟩ := Option.bind_eq_some_iff.1 h
    cases h
    exact ⟨commandOf_setInstr v p, wellFormed_setInstr v p, by
      rw [operandBytes_setInstr]; exact takeU32_eq_some_iff.1 hv⟩

/-! Whole commands. -/

theorem decode_encode {i : Instr} (hw : wellFormed i = true) (rest : List Byte) :
    decode (encode i ++ rest) = .ok (i, rest) := by
  rw [encode_eq_header_operands, List.append_assoc, decode_leBytes32, decodeHeader_commandHeader]
  simp only [decodeOperands_operandBytes hw rest]

/-- What a decoded command was read from: its header, then its operands. -/
theorem decode_ok {bs rest : List Byte} {i : Instr} (h : decode bs = .ok (i, rest)) :
    wellFormed i = true ∧ encode i ++ rest = bs := by
  unfold decode at h
  split at h
  · cases h
  · next w bs1 hw =>
    split at h
    · cases h
    · next c hc =>
      split at h
      · cases h
      · next r hr =>
        cases h
        obtain ⟨rfl, hwf, hbs⟩ := eq_of_decodeOperands hr
        refine ⟨hwf, ?_⟩
        rw [takeU32_eq_some_iff.1 hw, eq_commandHeader_of_decodeHeader hc, hbs, encode_eq_header_operands,
          List.append_assoc]

theorem decode_eq_ok_iff {bs rest : List Byte} {i : Instr} :
    decode bs = .ok (i, rest) ↔ wellFormed i = true ∧ encode i ++ rest = bs :=
  ⟨decode_ok, fun ⟨hw, hbs⟩ => hbs ▸ decode_encode hw rest⟩

theorem decode_illegal {bs rest : List Byte} {w : U32} (h : decode bs = .error (.illegalHeader w rest)) :
    decodeHeader w = none ∧ bs = leBytes32 w ++ rest := by
  unfold decode at h
  split at h
  · cases h
  · next w1 bs1 hw =>
    split at h
    · next hnone =>
      cases h
      exact ⟨hnone, takeU32_eq_some_iff.1 hw⟩
    · split at h
      · cases h
      · cases h

/-- Settles O6: the header names the command, and each field reader takes exactly the bytes of its field. -/
theorem decodeOfEncodeIsTheCommand : Obligations.DecodeOfEncodeIsTheCommand :=
  fun _ _ hw => decode_eq_ok_iff.2 ⟨hw, rfl⟩

/-- Settles O7: the branches of the decoder from the answer back. -/
theorem decodedBytesAreTheEncoding : Obligations.DecodedBytesAreTheEncoding :=
  fun _ _ _ => decode_eq_ok_iff.1

/-- Settles O8: each string is the encoding of its command. -/
theorem writtenCommandsDecode : Obligations.WrittenCommandsDecode :=
  ⟨decode_encode (i := .initC 4 8 1000 none) rfl [],
    decode_encode (i := .feed [0xD0, 0x07, 0xD0, 0x07]) rfl [],
    decode_encode (i := .getAttack) rfl [], decode_encode (i := .setRelease 4) rfl []⟩

/-! Bytes that end too soon. -/

/-- Were a command's first bytes a command of their own, the whole would decode in two ways. -/
theorem decode_of_cutOff {i : Instr} {front back : List Byte} (hw : wellFormed i = true) (hb : back ≠ [])
    (hsplit : front ++ back = encode i) : decode front = .error .incomplete := by
  have hwhole : decode (front ++ back) = .ok (i, []) := by
    rw [hsplit, ← List.append_nil (encode i)]
    exact decode_encode hw []
  cases hd : decode front with
  | ok r =>
    obtain ⟨j, rest⟩ := r
    obtain ⟨hj, rfl⟩ := decode_ok hd
    rw [List.append_assoc, decode_encode hj] at hwhole
    cases hr : rest ++ back with
    | nil => exact absurd (List.append_eq_nil_iff.1 hr).2 hb
    | cons x xs => rw [hr] at hwhole; cases hwhole
  | error e =>
    cases e with
    | incomplete => rfl
    | illegalHeader w rest =>
      obtain ⟨hnone, rfl⟩ := decode_illegal hd
      rw [List.append_assoc, decode_leBytes32, hnone] at hwhole
      cases hwhole

/-- Settles O13: the port holds the first bytes of an encoding, so the fetch finds it cut off. -/
theorem cutOffCommandIsRefused : Obligations.CutOffCommandIsRefused := by
  intro s i n hw hpos hlt hport
  have hback : (encode i).drop n ≠ [] := by
    rw [ne_eq, List.drop_eq_nil_iff]
    omega
  have hne : s.port ≠ [] := by
    rw [hport, ne_eq, List.take_eq_nil_iff]
    rintro (rfl | hnil)
    · exact absurd hpos (lt_irrefl 0)
    · rw [hnil] at hlt
      exact absurd hlt (Nat.not_lt_zero n)
  have hcut : decode s.port = .error .incomplete := by
    rw [hport]
    exact decode_of_cutOff hw hback (List.take_append_drop n (encode i))
  rw [step, fetch_incomplete hne hcut]

/-- Settles O10: the fetch finds the command and the state with its bytes read. -/
theorem stepRunsTheDecodedCommand : Obligations.StepRunsTheDecodedCommand := by
  intro s i rest h
  rw [step, fetch_ok h]

/-- Settles O12: the fetch finds nothing. -/
theorem idleBlockChangesNothing : Obligations.IdleBlockChangesNothing := by
  intro s h
  rw [step, fetch_nil h]

end Sys2Proof.Proofs
end

section
/-! Rounding to binary64 (00_scope R14): `roundMag num den` is the magnitude nearest `num / den`, ties to even. The magnitudes
are an increasing list of integers, so this is said by the midpoints to the two neighbours: the ratio is not above the upper
one nor below the lower one, and on either of them the magnitude is even. -/

namespace Sys2Proof.Proofs

open Sys2Proof.Machine Sys2Proof.Safety Sys2Proof.Laws

/-! The magnitudes in order. -/

/-- Every magnitude is a shift and a significand; a significand of 2^53 is the next shift's least. -/
theorem magUnits_shift {sh k : Nat} (hk : k ≤ 2 ^ 53) (hn : sh = 0 ∨ 2 ^ 52 ≤ k) :
    magUnits (sh * 2 ^ 52 + k) = k * 2 ^ sh := by
  rcases Nat.lt_or_ge k (2 ^ 52) with hlo | hlo
  · obtain rfl : sh = 0 := hn.resolve_right (by omega)
    rw [Nat.zero_mul, Nat.zero_add, magUnits_small hlo, Nat.pow_zero, Nat.mul_one]
  · rcases Nat.lt_or_ge k (2 ^ 53) with hhi | hhi
    · exact magUnits_normal hlo hhi
    · obtain rfl : k = 2 ^ 53 := le_antisymm hk hhi
      have hcarry : sh * 2 ^ 52 + 2 ^ 53 = (sh + 1) * 2 ^ 52 + 2 ^ 52 := by ring
      rw [hcarry, magUnits_normal le_rfl (by norm_num)]
      ring

theorem le_magUnits_shift_succ {sh k : Nat} (hk : k ≤ 2 ^ 53) (hn : sh = 0 ∨ 2 ^ 52 ≤ k) :
    (k + 1) * 2 ^ sh ≤ magUnits (sh * 2 ^ 52 + k + 1) := by
  rcases Nat.lt_or_ge k (2 ^ 53) with hhi | hhi
  · rw [Nat.add_assoc, magUnits_shift hhi (hn.imp_right Nat.le_succ_of_le)]
  · obtain rfl : k = 2 ^ 53 := le_antisymm hk hhi
    have hcarry : sh * 2 ^ 52 + 2 ^ 53 + 1 = (sh + 1) * 2 ^ 52 + (2 ^ 52 + 1) := by ring
    rw [hcarry, magUnits_normal (by norm_num) (by norm_num), pow_succ' 2 sh, ← Nat.mul_assoc]
    exact Nat.mul_le_mul_right _ (by norm_num)

theorem exists_shift (m : Nat) : ∃ sh k, k ≤ 2 ^ 53 ∧ (sh = 0 ∨ 2 ^ 52 ≤ k) ∧ m = sh * 2 ^ 52 + k := by
  rcases Nat.lt_or_ge m (2 ^ 52) with h | h
  · exact ⟨0, m, by omega, .inl rfl, by omega⟩
  · exact ⟨m / 2 ^ 52 - 1, m % 2 ^ 52 + 2 ^ 52, by omega, .inr (by omega), by omega⟩

theorem magUnits_strictMono : StrictMono magUnits := by
  refine strictMono_nat_of_lt_succ fun m => ?_
  obtain ⟨sh, k, hk, hn, rfl⟩ := exists_shift m
  calc magUnits (sh * 2 ^ 52 + k) = k * 2 ^ sh := magUnits_shift hk hn
    _ < (k + 1) * 2 ^ sh := Nat.mul_lt_mul_of_pos_right (Nat.lt_succ_self k) (Nat.two_pow_pos sh)
    _ ≤ magUnits (sh * 2 ^ 52 + k + 1) := le_magUnits_shift_succ hk hn

/-! The midpoints. -/

/-- A quotient is not above the midpoint of its rounding and the next integer. -/
theorem roundDiv_le_mid {n d : Nat} (hd : 0 < d) :
    2 * n ≤ (2 * roundDiv n d + 1) * d ∧ (2 * n = (2 * roundDiv n d + 1) * d → roundDiv n d % 2 = 0) := by
  have hdm := Nat.div_add_mod n d
  have hlt := Nat.mod_lt n hd
  rw [roundDiv_eq]
  split
  · have he : (2 * (n / d + 0) + 1) * d = 2 * (d * (n / d)) + d := by ring
    rw [he]
    omega
  · have he : (2 * (n / d + 1) + 1) * d = 2 * (d * (n / d)) + 3 * d := by ring
    rw [he]
    omega

/-- Nor below that of its rounding and the integer before. -/
theorem mid_le_roundDiv {n d : Nat} :
    2 * roundDiv n d * d ≤ 2 * n + d ∧ (2 * roundDiv n d * d = 2 * n + d → roundDiv n d % 2 = 0) := by
  have hdm := Nat.div_add_mod n d
  rw [roundDiv_eq]
  split
  · have he : 2 * (n / d + 0) * d = 2 * (d * (n / d)) := by ring
    rw [he]
    omega
  · have he : 2 * (n / d + 1) * d = 2 * (d * (n / d)) + 2 * d := by ring
    rw [he]
    omega

/-- The rounding of a ratio before the clamp to infinity: its shift and its significand. -/
theorem roundMag_shift (n : Nat) {d : Nat} (hd : 0 < d) :
    ∃ sh k, k = roundDiv n (d * 2 ^ sh) ∧ k ≤ 2 ^ 53 ∧ (sh = 0 ∨ 2 ^ 52 ≤ k ∧ 2 ^ 52 * (d * 2 ^ sh) ≤ n) ∧
      roundMag n d = min infMag (sh * 2 ^ 52 + k) := by
  refine ⟨roundShift n d, _, rfl, roundDiv_shift_le hd, ?_, rfl⟩
  rcases Nat.eq_zero_or_pos (roundShift n d) with h0 | hs
  · exact .inl h0
  · have hpow := (Nat.le_div_iff_mul_le hd).1 (pow_roundShift_le_div hs)
    refine .inr ⟨le_roundDiv_shift hd hs, ?_⟩
    calc 2 ^ 52 * (d * 2 ^ roundShift n d) = 2 ^ (52 + roundShift n d) * d := by rw [pow_add]; ring
      _ ≤ n := hpow

/-- A ratio that rounds to a finite magnitude is not above the midpoint to the next one. -/
theorem le_mid_roundMag {n d : Nat} (hd : 0 < d) (hfin : roundMag n d < infMag) :
    2 * n ≤ (magUnits (roundMag n d) + magUnits (roundMag n d + 1)) * d ∧
      (2 * n = (magUnits (roundMag n d) + magUnits (roundMag n d + 1)) * d → roundMag n d % 2 = 0) := by
  obtain ⟨sh, k, hk, hk53, hn, hround⟩ := roundMag_shift n hd
  have hr : roundMag n d = sh * 2 ^ 52 + k := by omega
  have hn' : sh = 0 ∨ 2 ^ 52 ≤ k := hn.imp_right And.left
  obtain ⟨hle, heven⟩ := roundDiv_le_mid (n := n) (Nat.mul_pos hd (Nat.two_pow_pos sh))
  rw [← hk] at hle heven
  have hmid : (2 * k + 1) * (d * 2 ^ sh) ≤
      (magUnits (sh * 2 ^ 52 + k) + magUnits (sh * 2 ^ 52 + k + 1)) * d := by
    calc (2 * k + 1) * (d * 2 ^ sh) = (k * 2 ^ sh + (k + 1) * 2 ^ sh) * d := by ring
      _ ≤ _ := Nat.mul_le_mul_right d
        (Nat.add_le_add (magUnits_shift hk53 hn').ge (le_magUnits_shift_succ hk53 hn'))
  rw [hr]
  refine ⟨le_trans hle hmid, fun heq => ?_⟩
  have := heven (le_antisymm hle (heq ▸ hmid))
  omega

/-- The same before the clamp and from below: there is nothing to show where the ratio is not below the magnitude, and
otherwise the magnitude before is one unit of the same shift away. -/
theorem mid_le_shift {n d sh k m : Nat} (hd : 0 < d) (hk : k = roundDiv n (d * 2 ^ sh)) (hk53 : k ≤ 2 ^ 53)
    (hn : sh = 0 ∨ 2 ^ 52 ≤ k ∧ 2 ^ 52 * (d * 2 ^ sh) ≤ n) (hm : m + 1 = sh * 2 ^ 52 + k) :
    (magUnits m + magUnits (m + 1)) * d ≤ 2 * n ∧
      ((magUnits m + magUnits (m + 1)) * d = 2 * n → (m + 1) % 2 = 0) := by
  obtain ⟨hle, heven⟩ := mid_le_roundDiv (n := n) (d := d * 2 ^ sh)
  rw [← hk] at hle heven
  have hu : magUnits (m + 1) = k * 2 ^ sh := by rw [hm]; exact magUnits_shift hk53 (hn.imp_right And.left)
  by_cases hlow : sh = 0 ∨ 2 ^ 52 < k
  · obtain ⟨j, rfl⟩ : ∃ j, k = j + 1 := ⟨k - 1, by omega⟩
    have hj : magUnits m = j * 2 ^ sh := by
      rw [show m = sh * 2 ^ 52 + j by omega]
      exact magUnits_shift (by omega) (hlow.imp_right Nat.le_of_lt_succ)
    have hmid : (magUnits m + magUnits (m + 1)) * d + d * 2 ^ sh = 2 * (j + 1) * (d * 2 ^ sh) := by
      rw [hu, hj]; ring
    refine ⟨by omega, fun heq => ?_⟩
    have := heven (by omega)
    omega
  · obtain ⟨hk52, hnk⟩ : 2 ^ 52 ≤ k ∧ 2 ^ 52 * (d * 2 ^ sh) ≤ n := hn.resolve_left fun h => hlow (.inl h)
    obtain rfl : k = 2 ^ 52 := le_antisymm (not_lt.1 fun h => hlow (.inr h)) hk52
    have hlt : magUnits m * d < magUnits (m + 1) * d :=
      Nat.mul_lt_mul_of_pos_right (magUnits_strictMono (Nat.lt_succ_self m)) hd
    have hge : magUnits (m + 1) * d ≤ n := by rw [hu, Nat.mul_assoc, Nat.mul_comm (2 ^ sh)]; exact hnk
    rw [Nat.add_mul]
    omega

/-- A ratio is not below the midpoint of the magnitude it rounds to and the one before. Past infinity it is above that. -/
theorem mid_le_roundMag {n d m : Nat} (hd : 0 < d) (hm : roundMag n d = m + 1) :
    (magUnits m + magUnits (m + 1)) * d ≤ 2 * n ∧
      ((magUnits m + magUnits (m + 1)) * d = 2 * n → (m + 1) % 2 = 0) := by
  obtain ⟨sh, k, hk, hk53, hn, hround⟩ := roundMag_shift n hd
  rcases Nat.lt_or_ge infMag (sh * 2 ^ 52 + k) with hpast | hwithin
  · obtain ⟨p, hp⟩ : ∃ p, p + 1 = sh * 2 ^ 52 + k := ⟨sh * 2 ^ 52 + k - 1, by omega⟩
    have hmp : m + 1 ≤ p := by omega
    have hinf : m + 1 = infMag := by omega
    obtain ⟨hle, -⟩ := mid_le_shift hd hk hk53 hn hp
    have hm1 := magUnits_strictMono.monotone (show m ≤ p by omega)
    have hm2 := magUnits_strictMono.monotone (show m + 1 ≤ p + 1 by omega)
    have hmid := Nat.mul_le_mul_right d (Nat.add_le_add hm1 hm2)
    exact ⟨le_trans hmid hle, fun _ => by rw [hinf]; decide⟩
  · exact mid_le_shift hd hk hk53 hn (by omega)

/-! Nearest. -/

/-- A ratio rounds to infinity from the midpoint of the greatest finite magnitude and 2^1024 on. -/
theorem roundMag_lt_infMag_iff {n d : Nat} (hd : 0 < d) :
    roundMag n d < infMag ↔ 2 * n < (magUnits (infMag - 1) + magUnits infMag) * d := by
  have hpos : infMag - 1 + 1 = infMag := by decide
  constructor
  · intro hlt
    obtain ⟨hle, heven⟩ := le_mid_roundMag hd hlt
    have h1 := magUnits_strictMono.monotone (Nat.le_sub_one_of_lt hlt)
    have h2 := magUnits_strictMono.monotone (Nat.succ_le_of_lt hlt)
    have hmid := Nat.mul_le_mul_right d (Nat.add_le_add h1 h2)
    refine lt_of_le_of_ne (le_trans hle hmid) fun heq => ?_
    have htop : roundMag n d = infMag - 1 := by
      by_contra hne
      have hs := magUnits_strictMono (show roundMag n d < infMag - 1 by omega)
      have hbelow := Nat.mul_lt_mul_of_pos_right (Nat.add_lt_add_of_lt_of_le hs h2) hd
      exact (lt_of_le_of_lt hle hbelow).ne heq
    have hodd : (infMag - 1) % 2 = 1 := by decide
    rw [htop, hpos] at heven
    have := heven heq
    omega
  · intro hlt
    refine lt_of_le_of_ne (roundMag_le_inf n d) fun heq => ?_
    obtain ⟨hle, -⟩ := mid_le_roundMag (m := infMag - 1) hd (heq.trans hpos.symm)
    rw [hpos] at hle
    omega

section
variable {a b x : ℚ}

/-- Of two numbers the lower is the nearer where `x` is not above their midpoint. -/
theorem nearer_lower (hab : a < b) (hx : 2 * x ≤ a + b) :
    |a - x| ≤ |b - x| ∧ (|a - x| = |b - x| → 2 * x = a + b) := by
  have hb : |b - x| = b - x := abs_of_nonneg (by linarith)
  rcases abs_cases (a - x) with ⟨ha, -⟩ | ⟨ha, -⟩
  · rw [ha, hb]
    exact ⟨by linarith, fun h => by linarith⟩
  · rw [ha, hb]
    exact ⟨by linarith, fun h => by linarith⟩

/-- And the upper where it is not below. -/
theorem nearer_upper (hab : a < b) (hx : a + b ≤ 2 * x) :
    |b - x| ≤ |a - x| ∧ (|b - x| = |a - x| → a + b = 2 * x) := by
  have h := nearer_lower (a := -b) (b := -a) (x := -x) (by linarith) (by linarith)
  rw [neg_sub_neg, neg_sub_neg, abs_sub_comm x b, abs_sub_comm x a] at h
  exact ⟨h.1, fun he => by linarith [h.2 he]⟩

end

/-- A finite rounding is as near as any magnitude, and even where another is as near. -/
theorem roundMag_nearest {n d : Nat} (hd : 0 < d) (hfin : roundMag n d < infMag) (j : Nat) :
    |(magUnits (roundMag n d) : ℚ) - n / d| ≤ |(magUnits j : ℚ) - n / d| ∧
      (|(magUnits (roundMag n d) : ℚ) - n / d| = |(magUnits j : ℚ) - n / d| →
        j = roundMag n d ∨ roundMag n d % 2 = 0) := by
  have hdq : (0 : ℚ) < d := Nat.cast_pos.2 hd
  rcases Nat.lt_trichotomy (roundMag n d) j with hlt | heq | hgt
  · obtain ⟨hle, heven⟩ := le_mid_roundMag hd hfin
    have hmid := Nat.mul_le_mul_right d
      (Nat.add_le_add_left (magUnits_strictMono.monotone (Nat.succ_le_of_lt hlt)) (magUnits (roundMag n d)))
    have hx : 2 * ((n : ℚ) / d) ≤ magUnits (roundMag n d) + magUnits j := by
      rw [← mul_div_assoc, div_le_iff₀ hdq]
      exact_mod_cast le_trans hle hmid
    obtain ⟨hnear, htie⟩ := nearer_lower (Nat.cast_lt.2 (magUnits_strictMono hlt)) hx
    refine ⟨hnear, fun h => .inr (heven (le_antisymm hle ?_))⟩
    have htie := htie h
    rw [← mul_div_assoc, div_eq_iff hdq.ne'] at htie
    have htie : 2 * n = (magUnits (roundMag n d) + magUnits j) * d := by exact_mod_cast htie
    rw [htie]
    exact hmid
  · rw [← heq]
    exact ⟨le_rfl, fun _ => .inl rfl⟩
  · obtain ⟨m, hm⟩ : ∃ m, roundMag n d = m + 1 := ⟨roundMag n d - 1, by omega⟩
    obtain ⟨hle, heven⟩ := mid_le_roundMag hd hm
    rw [hm] at hgt ⊢
    have hmid := Nat.mul_le_mul_right d
      (Nat.add_le_add_right (magUnits_strictMono.monotone (Nat.le_of_lt_succ hgt)) (magUnits (m + 1)))
    have hx : (magUnits j : ℚ) + magUnits (m + 1) ≤ 2 * ((n : ℚ) / d) := by
      rw [← mul_div_assoc, le_div_iff₀ hdq]
      exact_mod_cast le_trans hmid hle
    obtain ⟨hnear, htie⟩ := nearer_upper (Nat.cast_lt.2 (magUnits_strictMono hgt)) hx
    refine ⟨hnear, fun h => .inr (heven (le_antisymm hle ?_))⟩
    have htie := htie h
    rw [← mul_div_assoc, eq_div_iff hdq.ne'] at htie
    have htie : (magUnits j + magUnits (m + 1)) * d = 2 * n := by exact_mod_cast htie
    rw [← htie]
    exact hmid

/-- The same with the candidates of either sign: one below zero is no nearer than zero itself. -/
theorem roundMag_nearest_int {n d : Nat} (hd : 0 < d) (hfin : roundMag n d < infMag) {v : ℤ} {j : Nat}
    (hv : v.natAbs = magUnits j) :
    |(magUnits (roundMag n d) : ℚ) - n / d| ≤ |(v : ℚ) - n / d| ∧
      (|(magUnits (roundMag n d) : ℚ) - n / d| = |(v : ℚ) - n / d| →
        v = magUnits (roundMag n d) ∨ roundMag n d % 2 = 0) := by
  have hx : (0 : ℚ) ≤ n / d := by positivity
  rcases Int.natAbs_eq v with hpos | hneg
  · rw [hv] at hpos
    obtain ⟨hnear, htie⟩ := roundMag_nearest hd hfin j
    rw [hpos, Int.cast_natCast]
    exact ⟨hnear, fun h => (htie h).imp_left fun hj => by rw [hj]⟩
  · rw [hv] at hneg
    obtain ⟨hnear, htie⟩ := roundMag_nearest hd hfin 0
    rw [magUnits_zero, Nat.cast_zero, zero_sub, abs_neg, abs_of_nonneg hx] at hnear htie
    have hj : (0 : ℚ) ≤ magUnits j := Nat.cast_nonneg _
    have hfar : |(v : ℚ) - n / d| = magUnits j + n / d := by
      rw [hneg, Int.cast_neg, Int.cast_natCast, abs_of_nonpos (by linarith)]
      ring
    rw [hfar]
    refine ⟨by linarith, fun h => (htie (by linarith)).imp_left fun h0 => ?_⟩
    have hzero : magUnits j = 0 := by
      have : (magUnits j : ℚ) = 0 := by linarith
      exact_mod_cast this
    rw [hneg, hzero, ← h0, magUnits_zero]
    rfl

end Sys2Proof.Proofs
end

section
/-! The arithmetic of 00_scope R14 in terms of exact values: fadd, fsub, fmul, fdiv and toF round the exact result once and
give it the sign of IEEE 754 (log 1); the comparisons and `trunc` follow the values. -/

namespace Sys2Proof.Proofs

open Sys2Proof.Machine Sys2Proof.Safety Sys2Proof.Laws

/-! Values. The unit is written `oneUnits`, so that no tactic meets the numeral 2^1074. -/

theorem oneUnits_cast : (oneUnits : ℚ) = 2 ^ 1074 := by rw [oneUnits, Nat.cast_pow, Nat.cast_ofNat]

theorem oneUnits_cast_pos : (0 : ℚ) < oneUnits := Nat.cast_pos.2 oneUnits_pos

theorem value_eq_units (x : F64) : value x = funits x / oneUnits := by rw [value, oneUnits_cast]

/-- A magnitude with its sign. -/
def withSign (neg : Bool) (q : ℚ) : ℚ := if neg then -q else q

theorem natAbs_funits (x : F64) : (funits x).natAbs = magUnits (fmag x) := by
  unfold funits
  split
  · rw [Int.natAbs_neg, Int.natAbs_natCast]
  · exact Int.natAbs_natCast _

theorem funits_eq_withSign (x : F64) : (funits x : ℚ) = withSign (fneg x) (magUnits (fmag x)) := by
  unfold funits withSign
  split
  · rw [Int.cast_neg, Int.cast_natCast]
  · exact Int.cast_natCast _

theorem abs_withSign (neg : Bool) {q : ℚ} (hq : 0 ≤ q) : |withSign neg q| = q := by
  cases neg
  · exact abs_of_nonneg hq
  · exact (abs_neg q).trans (abs_of_nonneg hq)

theorem withSign_zero (neg : Bool) : withSign neg 0 = 0 := by cases neg <;> simp [withSign]

theorem withSign_mul (n1 n2 : Bool) (p q : ℚ) : withSign n1 p * withSign n2 q = withSign (n1 != n2) (p * q) := by
  cases n1 <;> cases n2 <;> simp [withSign]

theorem withSign_div (n1 n2 : Bool) (p q : ℚ) : withSign n1 p / withSign n2 q = withSign (n1 != n2) (p / q) := by
  cases n1 <;> cases n2 <;> simp [withSign, neg_div, div_neg]

theorem withSign_div_right (neg : Bool) (p q : ℚ) : withSign neg p / q = withSign neg (p / q) := by
  cases neg <;> simp [withSign, neg_div]

theorem intCast_eq_withSign (i : ℤ) : (i : ℚ) = withSign (decide (i < 0)) i.natAbs := by
  rcases lt_or_ge i 0 with h | h
  · rw [decide_eq_true h, Nat.cast_natAbs, abs_of_neg h]
    simp [withSign]
  · rw [decide_eq_false (not_lt.2 h), Nat.cast_natAbs, abs_of_nonneg h]
    rfl

/-! One rounding. -/

/-- The overflow bound is half the sum of 2^1024 and the greatest finite value. -/
theorem overflowBound_units :
    ((magUnits (infMag - 1) + magUnits infMag : Nat) : ℚ) = 2 * (overflowBound * oneUnits) := by
  have hmax : infMag - 1 = 2045 * 2 ^ 52 + (2 ^ 53 - 1) := by decide
  have hinf : infMag = 2046 * 2 ^ 52 + 2 ^ 52 := by decide
  obtain ⟨p, hp⟩ : ∃ p : ℕ, p = 2 ^ 970 := ⟨_, rfl⟩
  have h2045 : 2 ^ 2045 = 2 * p * oneUnits := by rw [oneUnits, hp, ← pow_succ', ← pow_add]
  have h2046 : 2 ^ 2046 = 2 ^ 2 * p * oneUnits := by rw [oneUnits, hp, ← pow_add, ← pow_add]
  have hbound : overflowBound = 2 ^ 54 * p - p := by
    rw [overflowBound, hp, Nat.cast_pow, Nat.cast_ofNat, ← pow_add]
  rw [hmax, hinf, magUnits_normal (by norm_num) (by norm_num), magUnits_normal le_rfl (by norm_num), hbound, h2045,
    h2046]
  push_cast
  ring

theorem overflowBound_pos : 0 < overflowBound :=
  sub_pos.2 (pow_lt_pow_right₀ one_lt_two (by norm_num))

/-- A rounding is finite where the value is below the overflow bound. -/
theorem roundMag_lt_infMag_iff_value {n d : Nat} (hd : 0 < d) :
    (n : ℚ) / d / oneUnits < overflowBound ↔ roundMag n d < infMag := by
  have hdq : (0 : ℚ) < d := Nat.cast_pos.2 hd
  rw [roundMag_lt_infMag_iff hd, ← Nat.cast_lt (α := ℚ), Nat.cast_mul, Nat.cast_mul, overflowBound_units,
    div_lt_iff₀ oneUnits_cast_pos, div_lt_iff₀ hdq, Nat.cast_ofNat, mul_assoc 2, mul_lt_mul_iff_right₀ two_pos]

/-- The units of a pattern, with its sign turned where `neg` says so. -/
def unitsTurned (neg : Bool) (c : F64) : ℤ := if neg then -funits c else funits c

theorem natAbs_unitsTurned (neg : Bool) (c : F64) : (unitsTurned neg c).natAbs = magUnits (fmag c) := by
  rw [← natAbs_funits c]
  cases neg
  · rfl
  · exact Int.natAbs_neg _

theorem unitsTurned_injective {neg : Bool} {a b : F64} (h : unitsTurned neg a = unitsTurned neg b) :
    value a = value b := by
  have hu : funits a = funits b := by
    cases neg
    · exact h
    · exact neg_injective h
  rw [value_eq_units, value_eq_units, hu]

theorem unitsTurned_fpack (neg : Bool) {m : Nat} (hm : m < 2 ^ 63) : unitsTurned neg (fpack neg m) = magUnits m := by
  rw [unitsTurned, funits, fneg_fpack hm, fmag_fpack hm]
  cases neg
  · rfl
  · exact neg_neg _

/-- The distance of a value from a signed one, in units and without the sign. -/
theorem abs_value_sub (neg : Bool) (x : ℚ) (c : F64) :
    |value c - withSign neg x / oneUnits| = |(unitsTurned neg c : ℚ) - x| / oneUnits := by
  rw [value_eq_units, ← sub_div, abs_div, abs_of_pos oneUnits_cast_pos]
  cases neg with
  | false => rfl
  | true =>
    have hturn : (funits c : ℚ) - withSign true x = -((unitsTurned true c : ℚ) - x) := by
      simp only [withSign, unitsTurned, if_true, Int.cast_neg]
      ring
    rw [hturn, abs_neg]

theorem nearestEven_fpack {neg : Bool} {n d : Nat} (hd : 0 < d) (hfin : roundMag n d < infMag) :
    NearestEven (withSign neg (n / d) / oneUnits) (fpack neg (roundMag n d)) := by
  have hm := roundMag_lt n d
  refine ⟨by rw [isFinite, fmag_fpack hm]; exact decide_eq_true hfin, fun c _ => ?_⟩
  obtain ⟨hnear, htie⟩ := roundMag_nearest_int hd hfin (natAbs_unitsTurned neg c)
  rw [abs_value_sub, abs_value_sub, unitsTurned_fpack neg hm, Int.cast_natCast,
    div_le_div_iff_of_pos_right oneUnits_cast_pos, div_left_inj' oneUnits_cast_pos.ne', fmag_fpack hm]
  refine ⟨hnear, fun h => (htie h).imp_left fun hv => ?_⟩
  rw [← unitsTurned_fpack neg hm] at hv
  exact unitsTurned_injective hv

/-- A result packed from the sign and the rounded magnitude of the exact one is that one correctly rounded. -/
theorem rounded_fpack {neg : Bool} {n d : Nat} {z : ℚ} (hd : 0 < d) (hz : z = withSign neg (n / d) / oneUnits) :
    Rounded z (fpack neg (roundMag n d)) := by
  have hx : (0 : ℚ) ≤ n / d := by positivity
  have habs : |z| = n / d / oneUnits := by
    rw [hz, abs_div, abs_withSign neg hx, abs_of_pos oneUnits_cast_pos]
  have hlt := roundMag_lt_infMag_iff_value (n := n) hd
  rw [← habs] at hlt
  refine ⟨fun h => hz ▸ nearestEven_fpack hd (hlt.1 h), fun h => ?_⟩
  have hinf : roundMag n d = infMag := le_antisymm (roundMag_le_inf n d) (not_lt.1 (mt hlt.2 (not_lt.2 h)))
  have hpos : 0 < |z| := lt_of_lt_of_le overflowBound_pos h
  have hneg : neg = true ↔ z < 0 := by
    rw [hz, withSign_div_right, ← habs]
    cases neg
    · exact iff_of_false nofun (not_lt.2 hpos.le)
    · exact iff_of_true rfl (neg_neg_of_pos hpos)
  rw [isInf, fmag_fpack (roundMag_lt n d), fneg_fpack (roundMag_lt n d)]
  exact ⟨decide_eq_true hinf, hneg⟩

/-! The operations on finite operands. -/

theorem fadd_of_finite {a b : F64} (ha : isFinite a = true) (hb : isFinite b = true) : fadd a b = faddFinite a b := by
  obtain ⟨hai, han⟩ := not_special_of_finite ha
  obtain ⟨hbi, hbn⟩ := not_special_of_finite hb
  simp [fadd, hai, han, hbi, hbn]

theorem fsub_of_finite {a b : F64} (ha : isFinite a = true) (hb : isFinite b = true) :
    fsub a b = faddFinite a (fflip b) := by
  obtain ⟨hai, han⟩ := not_special_of_finite ha
  obtain ⟨hbi, hbn⟩ := not_special_of_finite hb
  simp [fsub, hai, han, hbi, hbn]

theorem fmul_of_finite {a b : F64} (ha : isFinite a = true) (hb : isFinite b = true) :
    fmul a b = fpack (fneg a != fneg b) (roundMag (magUnits (fmag a) * magUnits (fmag b)) oneUnits) := by
  obtain ⟨hai, han⟩ := not_special_of_finite ha
  obtain ⟨hbi, hbn⟩ := not_special_of_finite hb
  simp [fmul, hai, han, hbi, hbn]

theorem fdiv_of_finite {a b : F64} (ha : isFinite a = true) (hb : isFinite b = true) (h0 : fmag b ≠ 0) :
    fdiv a b = fpack (fneg a != fneg b) (roundMag (magUnits (fmag a) * oneUnits) (magUnits (fmag b))) := by
  obtain ⟨hai, han⟩ := not_special_of_finite ha
  obtain ⟨hbi, hbn⟩ := not_special_of_finite hb
  simp [fdiv, hai, han, hbi, hbn, isZero, h0]

theorem funits_fflip (b : F64) : funits (fflip b) = -funits b := by
  unfold funits
  rw [fflip_parts.1, fflip_parts.2]
  cases fneg b <;> simp

theorem value_fflip (b : F64) : value (fflip b) = -value b := by
  rw [value_eq_units, value_eq_units, funits_fflip, Int.cast_neg, neg_div]

theorem value_add (a b : F64) : value a + value b = ((funits a + funits b : ℤ) : ℚ) / oneUnits := by
  rw [value_eq_units, value_eq_units, Int.cast_add, add_div]

theorem value_eq_withSign (x : F64) : value x = withSign (fneg x) (magUnits (fmag x)) / oneUnits := by
  rw [value_eq_units, funits_eq_withSign]

theorem value_ne_zero_iff {x : F64} (hx : isFinite x = true) : value x ≠ 0 ↔ fmag x ≠ 0 := by
  rw [Ne, Ne, ← magUnits_eq_zero (fmag_lt_infMag_of_finite hx).le, value_eq_units, div_eq_zero_iff,
    or_iff_left oneUnits_cast_pos.ne', Int.cast_eq_zero, ← natAbs_funits, Int.natAbs_eq_zero]

/-! Correct rounding. -/

theorem rounded_faddFinite (a b : F64) : Rounded (value a + value b) (faddFinite a b) := by
  have hsum : value a + value b =
      withSign (decide (funits a + funits b < 0)) ((funits a + funits b).natAbs / (1 : Nat)) / oneUnits := by
    rw [value_add, intCast_eq_withSign, Nat.cast_one, div_one]
  simp only [faddFinite]
  split
  · next hzero =>
    have hz : value a + value b = withSign (fneg a && fneg b) ((0 : Nat) / (1 : Nat)) / oneUnits := by
      rw [value_add, hzero, Int.cast_zero, Nat.cast_zero, zero_div, zero_div, withSign_zero, zero_div]
    have := rounded_fpack Nat.one_pos hz
    rwa [roundMag_zero] at this
  · exact rounded_fpack Nat.one_pos hsum

theorem rounded_fadd {a b : F64} (ha : isFinite a = true) (hb : isFinite b = true) :
    Rounded (value a + value b) (fadd a b) :=
  fadd_of_finite ha hb ▸ rounded_faddFinite a b

theorem rounded_fsub {a b : F64} (ha : isFinite a = true) (hb : isFinite b = true) :
    Rounded (value a - value b) (fsub a b) := by
  rw [fsub_of_finite ha hb, sub_eq_add_neg, ← value_fflip]
  exact rounded_faddFinite a (fflip b)

theorem rounded_fmul {a b : F64} (ha : isFinite a = true) (hb : isFinite b = true) :
    Rounded (value a * value b) (fmul a b) := by
  rw [fmul_of_finite ha hb]
  refine rounded_fpack oneUnits_pos ?_
  rw [value_eq_withSign, value_eq_withSign, div_mul_div_comm, withSign_mul, ← div_div, withSign_div_right,
    Nat.cast_mul]

theorem rounded_fdiv {a b : F64} (ha : isFinite a = true) (hb : isFinite b = true) (h0 : value b ≠ 0) :
    Rounded (value a / value b) (fdiv a b) := by
  have hmag := (value_ne_zero_iff hb).1 h0
  have hpos : 0 < magUnits (fmag b) :=
    Nat.pos_of_ne_zero (mt (magUnits_eq_zero (fmag_lt_infMag_of_finite hb).le).1 hmag)
  have hone := oneUnits_cast_pos.ne'
  rw [fdiv_of_finite ha hb hmag]
  refine rounded_fpack hpos ?_
  rw [value_eq_withSign, value_eq_withSign, div_div_div_cancel_right₀ hone, withSign_div, withSign_div_right,
    Nat.cast_mul, div_right_comm, mul_div_cancel_right₀ _ hone]

theorem rounded_toF (i : ℤ) : Rounded (i : ℚ) (toF i) := by
  refine rounded_fpack Nat.one_pos ?_
  rw [Nat.cast_one, div_one, Nat.cast_mul, withSign_div_right, mul_div_cancel_right₀ _ oneUnits_cast_pos.ne']
  exact intCast_eq_withSign i

/-- Settles O47: each operation packs the sign and the rounded magnitude of its exact result. -/
theorem arithmeticIsCorrectlyRounded : Obligations.ArithmeticIsCorrectlyRounded :=
  ⟨fun _ _ ha hb => ⟨rounded_fadd ha hb, rounded_fsub ha hb, rounded_fmul ha hb, rounded_fdiv ha hb⟩, rounded_toF⟩

/-! Signs. -/

theorem value_add_eq_zero_iff {a b : F64} : value a + value b = 0 ↔ funits a + funits b = 0 := by
  rw [value_add, div_eq_zero_iff, or_iff_left oneUnits_cast_pos.ne', Int.cast_eq_zero]

theorem value_add_neg_iff {a b : F64} : value a + value b < 0 ↔ funits a + funits b < 0 := by
  rw [value_add, div_lt_iff₀ oneUnits_cast_pos, zero_mul, Int.cast_lt_zero]

theorem fneg_faddFinite (a b : F64) : fneg (faddFinite a b) =
    if value a + value b = 0 then fneg a && fneg b else decide (value a + value b < 0) := by
  simp only [faddFinite, value_add_eq_zero_iff, value_add_neg_iff]
  split
  · exact fneg_fpack (by norm_num)
  · exact fneg_fpack (roundMag_lt _ _)

/-- Settles O55: a sum's sign by whether it is 0, a difference as the sum with the flipped operand, and the packed sign of
the others. -/
theorem resultsHaveTheIeeeSign : Obligations.ResultsHaveTheIeeeSign := by
  refine ⟨fun a b ha hb => ⟨?_, ?_, ?_, fun h0 => ?_⟩, fun i => fneg_fpack (roundMag_lt _ _)⟩
  · rw [fadd_of_finite ha hb, fneg_faddFinite]
  · rw [fsub_of_finite ha hb, fneg_faddFinite, value_fflip, ← sub_eq_add_neg, fflip_parts.1]
  · rw [fmul_of_finite ha hb, fneg_fpack (roundMag_lt _ _)]
  · rw [fdiv_of_finite ha hb ((value_ne_zero_iff hb).1 h0), fneg_fpack (roundMag_lt _ _)]

/-! Comparisons and `trunc`. -/

/-- Settles O48: finite operands are no NaN, and the ordered comparison is that of the values. -/
theorem comparisonsFollowTheValues : Obligations.ComparisonsFollowTheValues := by
  intro a b ha hb
  have hna := (not_special_of_finite ha).2
  have hnb := (not_special_of_finite hb).2
  refine ⟨unlessNaN_ok.2 ⟨hna, hnb, fltOrdered_of_finite ha hb⟩, fgt_of_finite ha hb,
    unlessNaN_ok.2 ⟨hna, hnb, ?_⟩, unlessNaN_ok.2 ⟨hna, hnb, ?_⟩⟩
  · simp only [fltOrdered_of_finite hb ha, decide_eq_true_iff]
  · simp only [fltOrdered_of_finite ha hb, decide_eq_true_iff]

/-- Settles O50: each is `unlessNaN` of its operands, and `trunc` tests its own first. -/
theorem nanOperandsFault : Obligations.NanOperandsFault := by
  intro a b h
  have hfault : ∀ {α : Type} {r : α}, unlessNaN a b r = .error .numericNan := unlessNaN_error.2 ⟨rfl, h⟩
  exact ⟨hfault, hfault, hfault, hfault, fun ha => if_pos ha⟩

theorem trunc_of_finite {x : F64} (h : isFinite x = true) : trunc x = .ok (truncFinite x) := by
  obtain ⟨hi, hn⟩ := not_special_of_finite h
  simp [trunc, hi, hn]

theorem truncFinite_eq_withSign (x : F64) :
    (truncFinite x : ℚ) = withSign (fneg x) ((magUnits (fmag x) / oneUnits : Nat) : ℚ) := by
  unfold truncFinite withSign
  simp only
  split
  · rw [Int.cast_neg, Int.cast_natCast]
  · exact Int.cast_natCast _

/-- Settles O49: the whole part of the magnitude, with the sign of the value. -/
theorem truncationIsTowardZero : Obligations.TruncationIsTowardZero := by
  intro x hx
  have hq : (0 : ℚ) ≤ (magUnits (fmag x) : ℚ) / oneUnits := by positivity
  have hw : (0 : ℚ) ≤ ((magUnits (fmag x) / oneUnits : Nat) : ℚ) := Nat.cast_nonneg _
  have hlt : magUnits (fmag x) < (magUnits (fmag x) / oneUnits + 1) * oneUnits :=
    Nat.lt_mul_of_div_lt (Nat.lt_succ_self _) oneUnits_pos
  refine ⟨truncFinite x, trunc_of_finite hx, ?_⟩
  rw [value_eq_withSign, withSign_div_right, truncFinite_eq_withSign, abs_withSign _ hw, abs_withSign _ hq,
    withSign_mul, bne_self_eq_false]
  refine ⟨Nat.cast_div_le, ?_, mul_nonneg hw hq⟩
  rw [div_lt_iff₀ oneUnits_cast_pos]
  exact_mod_cast hlt

/-! The unit interval. -/

/-- Settles O51: without a sign, the pattern is at most that of 1.0 exactly where the value is at most 1. -/
theorem unitPatternsAreValuesZeroToOne : Obligations.UnitPatternsAreValuesZeroToOne := by
  intro x
  have hf1 := isFinite_of_inUnit inUnit_f1
  have hle : isFinite x = true → fneg x = false → (value x ≤ 1 ↔ InUnit x) := fun hfin hneg => by
    have hpat : fmag x = x.toNat := fmag_of_nonneg ((fneg_false_iff x).1 hneg)
    have hx : x.toNat ≤ infMag := hpat ▸ (fmag_lt_infMag_of_finite hfin).le
    have hcmp := (fltOrdered_of_finite hf1 hfin).symm.trans (fltOrdered_of_le infMag_finite_lt_f1.le hx)
    rw [decide_eq_decide, value_f1] at hcmp
    rw [← not_lt, hcmp, not_lt]
  constructor
  · intro h
    have hfin := isFinite_of_inUnit h
    have hneg := fneg_nonneg (lt_infMag_of_inUnit h)
    exact ⟨hfin, hneg, (hle hfin hneg).2 h⟩
  · rintro ⟨hfin, hneg, hval⟩
    exact (hle hfin hneg).1 hval

end Sys2Proof.Proofs
end

section
/-! The gain ramps (41_gain_ramp_controller R73 to R76) as patterns. Patterns from that of +0.0 to that of infinity are in the
order of their values, and each ramp answers one of them: `rampUp_pattern` and `rampDown_pattern` write it through the magnitudes
alone, where a difference below zero is 0 by the truncated subtraction of `Nat`. The bounds and the monotonicity are then those of
`roundMag`. -/

namespace Sys2Proof.Proofs

open Sys2Proof.Machine Sys2Proof.Safety Sys2Proof.Laws

theorem magUnits_f1 : magUnits f1.toNat = oneUnits := by
  rw [← fmag_nonneg infMag_finite_lt_f1, magUnits_one]

theorem magUnits_le_one {x : F64} (h : InUnit x) : magUnits x.toNat ≤ oneUnits :=
  magUnits_f1 ▸ magUnits_strictMono.monotone h

theorem roundMag_mono_left {a b d : Nat} (hd : 0 < d) (h : a ≤ b) : roundMag a d ≤ roundMag b d :=
  roundMag_mono hd hd (Nat.mul_le_mul_right d h)

/-- A magnitude is its own rounding. -/
theorem roundMag_magUnits {m : Nat} (hm : m ≤ infMag) : roundMag (magUnits m) 1 = m := by
  simpa using roundMag_exact Nat.one_pos hm

theorem one_le_magUnits_toF_u32 {T : U32} (hT : T ≠ 0) : oneUnits ≤ magUnits (toF T.toNat).toNat := by
  have hTpos : 0 < T.toNat := Nat.pos_of_ne_zero fun h => hT (BitVec.eq_of_toNat_eq h)
  rw [toF_units (by have := T.isLt; omega)]
  exact Nat.le_mul_of_pos_left _ hTpos

theorem toF_u32_pos {T : U32} (hT : T ≠ 0) : 0 < (toF T.toNat).toNat := by
  refine Nat.pos_of_ne_zero fun h => ?_
  have hle := one_le_magUnits_toF_u32 hT
  rw [h, magUnits_zero] at hle
  exact absurd oneUnits_pos (not_lt_of_ge hle)

/-! Patterns up to that of infinity. -/

theorem isInf_of_toNat_eq {x : F64} (h : x.toNat = infMag) : isInf x = true ∧ isNaN x = false ∧ fneg x = false := by
  have h63 : x.toNat < 2 ^ 63 := h ▸ infMag_lt
  exact ⟨decide_eq_true ((fmag_of_nonneg h63).trans h), isNaN_of_le h.le, (fneg_false_iff x).2 h63⟩

/-- A sum with infinity is infinity, which is what the magnitudes round to. -/
theorem fadd_of_le {a b : F64} (ha : a.toNat < infMag) (hb : b.toNat ≤ infMag) :
    (fadd a b).toNat = roundMag (magUnits a.toNat + magUnits b.toNat) 1 := by
  rcases lt_or_eq_of_le hb with hlt | heq
  · exact fadd_nonneg ha hlt
  · obtain ⟨hinf, hnan, -⟩ := isInf_of_toNat_eq heq
    have hsum : fadd a b = b := by simp [fadd, isNaN_nonneg ha, isInf_nonneg ha, hinf, hnan]
    have hround : infMag ≤ roundMag (magUnits a.toNat + magUnits b.toNat) 1 :=
      le_roundMag Nat.one_pos le_rfl (by rw [heq]; omega)
    rw [hsum, heq]
    exact le_antisymm (heq ▸ hround) (roundMag_le_inf _ _)

/-- Infinity divided by a finite value that is not negative. -/
theorem fdiv_of_inf {a b : F64} (ha : a.toNat = infMag) (hb : b.toNat < infMag) : (fdiv a b).toNat = infMag := by
  obtain ⟨hinf, hnan, hneg⟩ := isInf_of_toNat_eq ha
  have hx : fdiv a b = fpack false infMag := by
    simp [fdiv, hnan, isNaN_nonneg hb, hinf, isInf_nonneg hb, hneg, fneg_nonneg hb]
  rw [hx, fpack_false_toNat infMag_lt]

/-- A difference below zero, the infinite one included. -/
theorem fsub_f1_past {q : F64} (hq : q.toNat ≤ infMag) (hpast : f1.toNat < q.toNat) :
    isNaN (fsub f1 q) = false ∧ forder (fsub f1 q) < 0 := by
  rcases lt_or_eq_of_le hq with hlt | heq
  · exact fsub_neg (isNaN_nonneg infMag_finite_lt_f1) hlt
      (by rw [forder_of_nonneg (nonneg_lt infMag_finite_lt_f1)]; exact_mod_cast hpast)
  · obtain ⟨hinf, hnan, hneg⟩ := isInf_of_toNat_eq heq
    have hx : fsub f1 q = fpack true infMag := by
      have hmag : fmag q = infMag := of_decide_eq_true hinf
      simp [fsub, isNaN_nonneg infMag_finite_lt_f1, isInf_nonneg infMag_finite_lt_f1, hinf, hnan, fflip, hneg, hmag]
    rw [hx, forder, fneg_fpack infMag_lt, fmag_fpack infMag_lt, if_pos rfl]
    exact ⟨isNaN_fpack le_rfl, by decide⟩

/-- The lower clamp of R76 on a difference of two values that are not negative. -/
theorem fmax_fsub_f0 {a c : F64} (ha : a.toNat < infMag) (hc : c.toNat < infMag) :
    ∃ w, fmax (fsub a c) f0 = .ok w ∧ w.toNat = roundMag (magUnits a.toNat - magUnits c.toNat) 1 := by
  rcases Nat.lt_or_ge a.toNat c.toNat with hlt | hge
  · refine ⟨f0, fmax_fsub_f0_of_neg (isNaN_nonneg ha) hc ?_, ?_⟩
    · rw [forder_of_nonneg (nonneg_lt ha)]
      exact_mod_cast hlt
    · rw [Nat.sub_eq_zero_of_le (magUnits_strictMono.monotone hlt.le), roundMag_zero, f0_toNat]
  · have hle : (fsub a c).toNat ≤ infMag := (fsub_le ha hge).trans ha.le
    rw [fmax_of_le hle (by decide), f0_toNat, if_neg (Nat.not_lt_zero _)]
    exact ⟨_, rfl, fsub_nonneg ha hge⟩

/-! The ratio of counts (R73). -/

theorem toF_natCast_le_infMag (n : Nat) : (toF n).toNat ≤ infMag := toF_nonneg n ▸ roundMag_le_inf _ _

theorem toF_natCast_mono {m n : Nat} (h : m ≤ n) : (toF m).toNat ≤ (toF n).toNat := by
  rw [toF_nonneg, toF_nonneg]
  exact roundMag_mono_left Nat.one_pos (Nat.mul_le_mul_right _ h)

section
variable {T : U32} (hT : T ≠ 0)
include hT

theorem rampQ_of_finite {n : Nat} (hn : (toF n).toNat < infMag) :
    (rampQ n T).toNat = roundMag (magUnits (toF n).toNat * oneUnits) (magUnits (toF T.toNat).toNat) :=
  fdiv_nonneg hn (toF_u32_lt_infMag T) (toF_u32_pos hT)

theorem rampQ_le_infMag (n : Nat) : (rampQ n T).toNat ≤ infMag := by
  rcases lt_or_eq_of_le (toF_natCast_le_infMag n) with hlt | heq
  · exact rampQ_of_finite hT hlt ▸ roundMag_le_inf _ _
  · exact (fdiv_of_inf heq (toF_u32_lt_infMag T)).le

theorem rampQ_mono {m n : Nat} (h : m ≤ n) : (rampQ m T).toNat ≤ (rampQ n T).toNat := by
  rcases lt_or_eq_of_le (toF_natCast_le_infMag n) with hlt | heq
  · have hpos := lt_of_lt_of_le oneUnits_pos (one_le_magUnits_toF_u32 hT)
    have hm := toF_natCast_mono h
    rw [rampQ_of_finite hT hlt, rampQ_of_finite hT (lt_of_le_of_lt hm hlt)]
    exact roundMag_mono_left hpos (Nat.mul_le_mul_right _ (magUnits_strictMono.monotone hm))
  · exact (rampQ_le_infMag hT m).trans (fdiv_of_inf heq (toF_u32_lt_infMag T)).ge

theorem rampQ_zero : (rampQ 0 T).toNat = 0 := by
  have hzero : (toF (0 : Nat)).toNat = 0 := by rw [toF_nonneg, Nat.zero_mul, roundMag_zero]
  have h := rampQ_of_finite hT (hzero.trans_lt (by decide : 0 < infMag))
  rwa [hzero, magUnits_zero, Nat.zero_mul, roundMag_zero] at h

/-! The ramps. -/

theorem rampUp_pattern {st : Regs} (hf : InUnit st.floorGain) (n : Nat) :
    ∃ u, rampUp st n T = .ok u ∧
      u.toNat = min (roundMag (magUnits st.floorGain.toNat + magUnits (rampQ n T).toNat) 1) f1.toNat := by
  have hsum := fadd_of_le (lt_infMag_of_inUnit hf) (rampQ_le_infMag hT n)
  rw [rampUp_of_ne hT, fmin_of_le (hsum ▸ roundMag_le_inf _ _) infMag_finite_lt_f1.le, ← hsum]
  refine ⟨_, rfl, ?_⟩
  split <;> omega

theorem rampDown_pattern {st : Regs} (hc : InUnit st.ceilGain) (n : Nat) :
    ∃ w, rampDown st n T = .ok w ∧
      w.toNat = roundMag (magUnits (roundMag (oneUnits - magUnits (rampQ n T).toNat) 1) -
        magUnits st.ceilGain.toNat) 1 := by
  have hq := rampQ_le_infMag hT n
  have hc' := lt_infMag_of_inUnit hc
  rw [rampDown_of_ne hT]
  rcases Nat.lt_or_ge f1.toNat (rampQ n T).toNat with hpast | hwithin
  · obtain ⟨hn, hneg⟩ := fsub_f1_past hq hpast
    refine ⟨f0, fmax_fsub_f0_of_neg hn hc' (by omega), ?_⟩
    have hone : oneUnits ≤ magUnits (rampQ n T).toNat := magUnits_f1 ▸ magUnits_strictMono.monotone hpast.le
    rw [Nat.sub_eq_zero_of_le hone, roundMag_zero, magUnits_zero, Nat.zero_sub, roundMag_zero, f0_toNat]
  · have hrest := fsub_nonneg infMag_finite_lt_f1 hwithin
    rw [magUnits_f1] at hrest
    rw [← hrest]
    exact fmax_fsub_f0 (lt_of_le_of_lt (fsub_le infMag_finite_lt_f1 hwithin) infMag_finite_lt_f1) hc'

end

/-- `1.0 - ceilGain`, the base of the DOWN ramp. -/
theorem fsub_f1_pattern {c : F64} (hc : InUnit c) : (fsub f1 c).toNat = roundMag (oneUnits - magUnits c.toNat) 1 := by
  rw [fsub_nonneg infMag_finite_lt_f1 hc, magUnits_f1]

theorem inUnit_fsub_f1 {c : F64} (hc : InUnit c) : InUnit (fsub f1 c) := fsub_le infMag_finite_lt_f1 hc

/-- What is left of the ramp is at most 1.0. -/
theorem magUnits_roundMag_le_one (q : Nat) : magUnits (roundMag (oneUnits - q) 1) ≤ oneUnits := by
  rw [← magUnits_f1]
  refine magUnits_strictMono.monotone (roundMag_le Nat.one_pos infMag_finite_lt_f1.le ?_)
  rw [magUnits_f1]
  omega

/-- Settles O34: the test of the timer comes first. -/
theorem zeroTimerJumpsToTheExtreme : Obligations.ZeroTimerJumpsToTheExtreme :=
  fun st d => ⟨rampUp_zero st d, rampDown_zero st d⟩

theorem rampUp_base {st : Regs} {T : U32} (hT : T ≠ 0) (hf : InUnit st.floorGain) :
    rampUp st 0 T = .ok st.floorGain := by
  obtain ⟨u, hu, hpat⟩ := rampUp_pattern hT hf 0
  have heq : u = st.floorGain := by
    apply BitVec.eq_of_toNat_eq
    rw [hpat, Nat.cast_zero, rampQ_zero hT, magUnits_zero, Nat.add_zero, roundMag_magUnits (lt_infMag_of_inUnit hf).le,
      min_eq_left hf]
  exact hu.trans (congrArg _ heq)

theorem rampDown_base {st : Regs} {T : U32} (hT : T ≠ 0) (hc : InUnit st.ceilGain) :
    rampDown st 0 T = .ok (fsub f1 st.ceilGain) := by
  obtain ⟨w, hw, hpat⟩ := rampDown_pattern hT hc 0
  have heq : w = fsub f1 st.ceilGain := by
    apply BitVec.eq_of_toNat_eq
    rw [hpat, fsub_f1_pattern hc, Nat.cast_zero, rampQ_zero hT, magUnits_zero, Nat.sub_zero, ← magUnits_f1,
      roundMag_magUnits infMag_finite_lt_f1.le]
  exact hw.trans (congrArg _ heq)

/-- Settles O35: the ratio is 0. -/
theorem rampsStartAtTheirBase : Obligations.RampsStartAtTheirBase :=
  fun _ _ hT hf hc => ⟨rampUp_base hT hf, rampDown_base hT hc⟩

theorem rampUp_between {st : Regs} (n : Nat) (T : U32) (hf : InUnit st.floorGain) :
    ∃ u, rampUp st n T = .ok u ∧ st.floorGain.toNat ≤ u.toNat ∧ InUnit u := by
  by_cases hT : T = 0
  · subst hT
    exact ⟨f1, rampUp_zero st n, hf, inUnit_f1⟩
  · obtain ⟨u, hu, hpat⟩ := rampUp_pattern hT hf n
    refine ⟨u, hu, hpat ▸ le_min ?_ hf, hpat.trans_le (min_le_right _ _)⟩
    exact le_roundMag Nat.one_pos (lt_infMag_of_inUnit hf).le (by omega)

theorem rampDown_between {st : Regs} (n : Nat) (T : U32) (hc : InUnit st.ceilGain) :
    ∃ w, rampDown st n T = .ok w ∧ w.toNat ≤ (fsub f1 st.ceilGain).toNat := by
  by_cases hT : T = 0
  · subst hT
    exact ⟨f0, rampDown_zero st n, f0_toNat ▸ Nat.zero_le _⟩
  · obtain ⟨w, hw, hpat⟩ := rampDown_pattern hT hc n
    refine ⟨w, hw, ?_⟩
    rw [hpat, fsub_f1_pattern hc]
    exact roundMag_mono_left Nat.one_pos (Nat.sub_le_sub_right (magUnits_roundMag_le_one _) _)

/-- Settles O36: the clamp above, the base below; infinite ratios included. -/
theorem rampsStayWithinTheirClamps : Obligations.RampsStayWithinTheirClamps := by
  intro st d T hd hf hc
  obtain ⟨n, rfl⟩ := Int.eq_ofNat_of_zero_le hd
  exact ⟨inUnit_fsub_f1 hc, rampUp_between n T hf, rampDown_between n T hc⟩

theorem rampUp_mono {st : Regs} {m n : Nat} {T : U32} {u u' : F64} (h : m ≤ n) (hf : InUnit st.floorGain)
    (hu : rampUp st m T = .ok u) (hu' : rampUp st n T = .ok u') : u.toNat ≤ u'.toNat := by
  by_cases hT : T = 0
  · subst hT
    rw [rampUp_zero] at hu hu'
    cases hu
    cases hu'
    exact le_rfl
  · obtain ⟨_, hv, hpat⟩ := rampUp_pattern hT hf m
    obtain ⟨_, hv', hpat'⟩ := rampUp_pattern hT hf n
    cases hu.symm.trans hv
    cases hu'.symm.trans hv'
    rw [hpat, hpat']
    exact min_le_min_right _ (roundMag_mono_left Nat.one_pos
      (Nat.add_le_add_left (magUnits_strictMono.monotone (rampQ_mono hT h)) _))

theorem rampDown_anti {st : Regs} {m n : Nat} {T : U32} {w w' : F64} (h : m ≤ n) (hc : InUnit st.ceilGain)
    (hw : rampDown st m T = .ok w) (hw' : rampDown st n T = .ok w') : w'.toNat ≤ w.toNat := by
  by_cases hT : T = 0
  · subst hT
    rw [rampDown_zero] at hw hw'
    cases hw
    cases hw'
    exact le_rfl
  · obtain ⟨_, hv, hpat⟩ := rampDown_pattern hT hc m
    obtain ⟨_, hv', hpat'⟩ := rampDown_pattern hT hc n
    cases hw.symm.trans hv
    cases hw'.symm.trans hv'
    have hrest := roundMag_mono_left Nat.one_pos
      (Nat.sub_le_sub_left (magUnits_strictMono.monotone (rampQ_mono hT h)) oneUnits)
    rw [hpat, hpat']
    exact roundMag_mono_left Nat.one_pos (Nat.sub_le_sub_right (magUnits_strictMono.monotone hrest) _)

/-- Settles O37: the ratio grows with the count, and each rounding keeps the order. -/
theorem rampsAreMonotone : Obligations.RampsAreMonotone := by
  intro st d d' T u u' w w' hd hle hf hc hu hu' hw hw'
  obtain ⟨m, rfl⟩ := Int.eq_ofNat_of_zero_le hd
  obtain ⟨n, rfl⟩ := Int.eq_ofNat_of_zero_le (hd.trans hle)
  have h : m ≤ n := Int.ofNat_le.1 hle
  exact ⟨rampUp_mono h hf hu hu', rampDown_anti h hc hw hw'⟩

/-! Tracking (R79, R80). -/

theorem trackUp_eq {st : Regs} (hg : InUnit st.gain) (hc : InUnit st.ceilGain) : trackUp st =
    .ok { st with ceilGain := if st.ceilGain.toNat < st.gain.toNat then st.gain else st.ceilGain } := by
  rw [trackUp, fmax_of_le (lt_infMag_of_inUnit hc).le (lt_infMag_of_inUnit hg).le]
  rfl

theorem trackDown_eq {st : Regs} (hg : InUnit st.gain) (hf : InUnit st.floorGain) : trackDown st =
    .ok { st with floorGain := if st.gain.toNat < st.floorGain.toNat then st.gain else st.floorGain } := by
  rw [trackDown, fmin_of_le (lt_infMag_of_inUnit hf).le (lt_infMag_of_inUnit hg).le]
  rfl

/-- Settles O39: on patterns in [0, 1] the clamps compare the patterns. -/
theorem trackingKeepsTheExtremes : Obligations.TrackingKeepsTheExtremes :=
  fun _ hg hc hf => ⟨trackUp_eq hg hc, trackDown_eq hg hf⟩

end Sys2Proof.Proofs
end

section
/-! What a frame reads and writes outside the ramps: the sample codec (44 R98 to R101), the output sample (41 R81), the envelope
at `exp` = 1.0 (40 R70) and the Compressor's phase select at its extremes (42 R85). -/

namespace Sys2Proof.Proofs

open Sys2Proof.Machine Sys2Proof.Safety Sys2Proof.Laws

/-! The codec. -/

theorem decodeFrame_extract (v : Sample) : decodeFrame (v.extractLsb' 0 8) (v.extractLsb' 8 8) = v := by
  rw [decodeFrame, BitVec.extractLsb'_append_extractLsb'_eq_extractLsb' (show 8 = 0 + 8 from rfl)]
  exact BitVec.extractLsb'_eq_self

theorem extract_decodeFrame (b0 b1 : Byte) :
    (decodeFrame b0 b1).extractLsb' 0 8 = b0 ∧ (decodeFrame b0 b1).extractLsb' 8 8 = b1 :=
  ⟨BitVec.extractLsb'_append_eq_right, BitVec.extractLsb'_append_eq_left⟩

/-- An integer of the `i16` range is read back from its pattern. -/
theorem sext16_pattern16 {o : Int} (hlo : -32768 ≤ o) (hhi : o ≤ 32767) : sext16 (pattern16 o) = o := by
  rw [sext16, pattern16, BitVec.toInt_ofInt]
  exact Int.bmod_eq_of_le (by norm_num; omega) (by norm_num; omega)

theorem pattern16_sext16 (v : Sample) : pattern16 (sext16 v) = v := BitVec.ofInt_toInt

/-- Settles O29: the two bytes are the halves of the pattern, and the pattern is the integer's on the `i16` range. -/
theorem codecRoundTrips : Obligations.CodecRoundTrips := by
  refine ⟨fun o hlo hhi => ⟨_, _, rfl, ?_⟩, fun b0 b1 => ?_⟩
  · rw [decodeFrame_extract, sext16_pattern16 hlo hhi]
  · rw [encodeFrame, pattern16_sext16, (extract_decodeFrame b0 b1).1, (extract_decodeFrame b0 b1).2]

/-! The output sample. -/

theorem natAbs_sext16_le (s : Sample) : (sext16 s).natAbs ≤ 32768 := rectify_le s

/-- A sample is converted exactly. -/
theorem magUnits_fmag_toF_sample (s : Sample) :
    magUnits (fmag (toF (sext16 s))) = (sext16 s).natAbs * oneUnits := by
  have h53 : (sext16 s).natAbs < 2 ^ 53 := lt_of_le_of_lt (natAbs_sext16_le s) (by norm_num)
  rw [fmag_toF, ← toF_nonneg, toF_units h53]

theorem isFinite_toF_sample (s : Sample) : isFinite (toF (sext16 s)) = true :=
  isFinite_toF ((natAbs_sext16_le s).trans (by norm_num))

theorem truncFinite_fpack (neg : Bool) {m : Nat} (hm : m < 2 ^ 63) :
    truncFinite (fpack neg m) = if neg then -((magUnits m / oneUnits : Nat) : Int) else (magUnits m / oneUnits : Nat) := by
  simp only [truncFinite, fneg_fpack hm, fmag_fpack hm]

/-- The whole part of the magnitude of the product of a sample and a gain. -/
def scaled (s : Sample) (g : F64) : Nat :=
  magUnits (roundMag ((sext16 s).natAbs * oneUnits * magUnits g.toNat) oneUnits) / oneUnits

/-- A gain in [0, 1] does not raise the magnitude. -/
theorem roundMag_scaled_le (s : Sample) {g : F64} (hg : InUnit g) :
    roundMag ((sext16 s).natAbs * oneUnits * magUnits g.toNat) oneUnits ≤ fmag (toF (sext16 s)) := by
  refine roundMag_le oneUnits_pos (fmag_lt_infMag_of_finite (isFinite_toF_sample s)).le ?_
  rw [magUnits_fmag_toF_sample]
  exact Nat.mul_le_mul_left _ (magUnits_le_one hg)

theorem scaled_le (s : Sample) {g : F64} (hg : InUnit g) : scaled s g ≤ (sext16 s).natAbs := by
  refine (Nat.div_le_div_right (magUnits_strictMono.monotone (roundMag_scaled_le s hg))).trans ?_
  rw [magUnits_fmag_toF_sample, Nat.mul_div_cancel _ oneUnits_pos]

theorem scaled_f1 (s : Sample) : scaled s f1 = (sext16 s).natAbs := by
  have hround : roundMag ((sext16 s).natAbs * oneUnits * magUnits f1.toNat) oneUnits = fmag (toF (sext16 s)) := by
    rw [magUnits_f1, ← magUnits_fmag_toF_sample]
    exact roundMag_exact oneUnits_pos (fmag_lt_infMag_of_finite (isFinite_toF_sample s)).le
  rw [scaled, hround, magUnits_fmag_toF_sample, Nat.mul_div_cancel _ oneUnits_pos]

theorem scaled_f0 (s : Sample) : scaled s f0 = 0 := by
  rw [scaled, f0_toNat, magUnits_zero, Nat.mul_zero, roundMag_zero, magUnits_zero, Nat.zero_div]

/-- R81 with a gain in [0, 1]: the product is finite, and its whole part has the sign of the sample. -/
theorem applyGain_eq {st : Regs} (hg : InUnit st.gain) (s : Sample) :
    applyGain st s = .ok (if sext16 s < 0 then -(scaled s st.gain : Int) else scaled s st.gain) := by
  have hgfin := lt_infMag_of_inUnit hg
  have hprod : fmul (toF (sext16 s)) st.gain = fpack (decide (sext16 s < 0))
      (roundMag ((sext16 s).natAbs * oneUnits * magUnits st.gain.toNat) oneUnits) := by
    have hneg : fneg (toF (sext16 s)) = decide (sext16 s < 0) := fneg_fpack (roundMag_lt _ _)
    rw [fmul_of_finite (isFinite_toF_sample s) (isFinite_of_inUnit hg), magUnits_fmag_toF_sample, hneg,
      fneg_nonneg hgfin, fmag_nonneg hgfin, Bool.bne_false]
  have hm := roundMag_lt ((sext16 s).natAbs * oneUnits * magUnits st.gain.toNat) oneUnits
  have hfin : isFinite (fmul (toF (sext16 s)) st.gain) = true := by
    rw [hprod, isFinite, fmag_fpack hm]
    exact decide_eq_true ((roundMag_scaled_le s hg).trans_lt (fmag_lt_infMag_of_finite (isFinite_toF_sample s)))
  rw [applyGain, trunc_of_finite hfin, hprod, truncFinite_fpack _ hm]
  simp only [decide_eq_true_iff]
  rfl

theorem applyGain_bounds {st : Regs} (hg : InUnit st.gain) (s : Sample) :
    ∃ o, applyGain st s = .ok o ∧ o.natAbs ≤ (sext16 s).natAbs ∧
      (0 < o → 0 < sext16 s) ∧ (o < 0 → sext16 s < 0) := by
  have hle := scaled_le s hg
  refine ⟨_, applyGain_eq hg s, ?_⟩
  split <;> omega

/-- Settles O31: the magnitude is no larger, and the sign is packed from the sample's. -/
theorem outputNeverExceedsTheSample : Obligations.OutputNeverExceedsTheSample :=
  fun _ s hg => applyGain_bounds hg s

/-- Settles O30: a product with 1.0 is exact, and the whole part of an integer is that integer. -/
theorem unitGainPassesTheSample : Obligations.UnitGainPassesTheSample := by
  intro st s hg
  have hg1 : st.gain = f1 := hg
  rw [applyGain_eq (hg1 ▸ inUnit_f1), hg1, scaled_f1]
  congr 1
  split <;> omega

theorem applyGain_of_gain_zero {st : Regs} (hg : st.gain = f0) (s : Sample) : applyGain st s = .ok 0 := by
  rw [applyGain_eq (hg ▸ inUnit_f0), hg, scaled_f0]
  split <;> rfl

theorem applyGain_of_silence {st : Regs} (hg : InUnit st.gain) : applyGain st 0 = .ok 0 := by
  obtain ⟨o, ho, hle, -⟩ := applyGain_bounds hg 0
  obtain rfl : o = 0 := Int.natAbs_eq_zero.1 (Nat.le_zero.1 hle)
  exact ho

/-! Products and sums with a constant. -/

theorem fmul_f1_left {x : F64} (hx : x.toNat < infMag) : fmul f1 x = x := by
  apply BitVec.eq_of_toNat_eq
  rw [fmul_nonneg infMag_finite_lt_f1 hx, magUnits_f1, Nat.mul_comm]
  exact roundMag_exact oneUnits_pos hx.le

theorem fmul_zero_left {a x : F64} (ha : a.toNat = 0) (hx : x.toNat < infMag) : (fmul a x).toNat = 0 := by
  rw [fmul_nonneg (ha ▸ by decide) hx, ha, magUnits_zero, Nat.zero_mul, roundMag_zero]

theorem fmul_zero_right {a x : F64} (ha : a.toNat < infMag) (hx : x.toNat = 0) : (fmul a x).toNat = 0 := by
  rw [fmul_nonneg ha (hx ▸ by decide), hx, magUnits_zero, Nat.mul_zero, roundMag_zero]

theorem fadd_zero_right {a x : F64} (ha : a.toNat < infMag) (hx : x.toNat = 0) : fadd a x = a := by
  apply BitVec.eq_of_toNat_eq
  rw [fadd_nonneg ha (hx ▸ by decide), hx, magUnits_zero, Nat.add_zero, roundMag_magUnits ha.le]

theorem envelopeCap_lt_infMag : envelopeCap.toNat < infMag := by decide

theorem toF_rectify_lt_infMag (s : Sample) : (toF (rectify s)).toNat < infMag :=
  toF_natCast_lt_infMag ((rectify_le s).trans (by norm_num))

/-- With `exp` = 1.0 the old envelope has the factor 0. -/
theorem nextEnvelope_f1 {env : F64} (henv : env.toNat ≤ envelopeCap.toNat) (s : Sample) :
    nextEnvelope f1 env s = toF (rectify s) := by
  have hrest : (fsub f1 f1).toNat = 0 := by
    rw [fsub_f1_pattern inUnit_f1, magUnits_f1, Nat.sub_self, roundMag_zero]
  have hs := toF_rectify_lt_infMag s
  rw [nextEnvelope, fmul_f1_left hs]
  exact fadd_zero_right hs (fmul_zero_left hrest (henv.trans_lt envelopeCap_lt_infMag))

theorem value_toF_rectify (s : Sample) : value (toF (rectify s)) = (rectify s : ℚ) := by
  have hlt : rectify s < 2 ^ 32 := lt_of_le_of_lt (rectify_le s) (by norm_num)
  have h := value_toF_u32 (BitVec.ofNat 32 (rectify s))
  rwa [BitVec.toNat_ofNat, Nat.mod_eq_of_lt hlt] at h

/-- Settles O33: the sum is `1.0 * |s| + 0`, and |s| is converted exactly. -/
theorem unitExpTracksTheSample : Obligations.UnitExpTracksTheSample := by
  intro env s henv
  have h := nextEnvelope_f1 henv s
  exact ⟨h, (congrArg value h).trans (value_toF_rectify s)⟩

/-! The phase select (R85). -/

theorem compSelect_eq {st : Regs} (henv : st.envelope.toNat < infMag) (hg : InUnit st.gain) :
    compSelect st = .ok (decide ((fmul st.envelope st.gain).toNat < (toF st.threshold.toNat).toNat)) := by
  have hprod : (fmul st.envelope st.gain).toNat ≤ infMag :=
    fmul_nonneg henv (lt_infMag_of_inUnit hg) ▸ roundMag_le_inf _ _
  have ht := (toF_u32_lt_infMag st.threshold).le
  exact unlessNaN_ok.2 ⟨isNaN_of_le hprod, isNaN_of_le ht, fltOrdered_of_le hprod ht⟩

/-- A product of 0 is below every threshold but 0. -/
theorem compSelect_of_zero {st : Regs} (henv : st.envelope.toNat < infMag) (hg : InUnit st.gain)
    (hzero : (fmul st.envelope st.gain).toNat = 0) (ht : st.threshold ≠ 0) : compSelect st = .ok true := by
  rw [compSelect_eq henv hg, hzero, decide_eq_true (toF_u32_pos ht)]

/-- Settles O40: no product is below +0.0, and a product with 0.0 is below every other threshold. -/
theorem compressorSelectAtItsExtremes : Obligations.CompressorSelectAtItsExtremes := by
  intro st hg hcap
  have henv := hcap.trans_lt envelopeCap_lt_infMag
  refine ⟨fun ht => ?_, fun hg0 ht => ?_⟩
  · have hzero : (toF st.threshold.toNat).toNat = 0 := by
      have hnat : st.threshold.toNat = 0 := by rw [ht]; rfl
      rw [hnat, toF_nonneg, Nat.zero_mul, roundMag_zero]
    rw [compSelect_eq henv hg, hzero, decide_eq_false (Nat.not_lt_zero _)]
  · exact compSelect_of_zero henv hg (fmul_zero_right henv (congrArg BitVec.toNat hg0)) ht

end Sys2Proof.Proofs
end

section
/-! A frame keeps the invariant (10_state R34 to R38). The branches keep the gains in [0, 1] and leave exactly one phase counter
set; the envelope stays below its cap, where adding at most 32768 is less than half a place and rounds back. -/

namespace Sys2Proof.Proofs

open Sys2Proof.Machine Sys2Proof.Safety Sys2Proof.Laws

/-! The envelope (R38). -/

/-- A ratio below the midpoint to the next magnitude rounds to at most this one. -/
theorem roundMag_le_of_lt_mid {n d m : Nat} (hd : 0 < d) (h : 2 * n < (magUnits m + magUnits (m + 1)) * d) :
    roundMag n d ≤ m := by
  by_contra hgt
  obtain ⟨p, hp⟩ : ∃ p, roundMag n d = p + 1 := ⟨roundMag n d - 1, by omega⟩
  have hmp : m ≤ p := by omega
  obtain ⟨hle, -⟩ := mid_le_roundMag hd hp
  have hmid := Nat.mul_le_mul_right d
    (Nat.add_le_add (magUnits_strictMono.monotone hmp) (magUnits_strictMono.monotone (Nat.succ_le_succ hmp)))
  exact absurd (h.trans_le (hmid.trans hle)) (lt_irrefl _)

theorem envelopeCap_toNat : envelopeCap.toNat = (1023 + 69) * 2 ^ 52 := by decide

/-- At the cap a place is 2^17. -/
theorem magUnits_above_cap : magUnits (envelopeCap.toNat + 1) = (2 ^ 69 + 2 ^ 17) * oneUnits := by
  have hshift : envelopeCap.toNat + 1 = 1091 * 2 ^ 52 + (2 ^ 52 + 1) := by decide
  have hplace : 2 ^ 1091 = 2 ^ 17 * oneUnits := by rw [oneUnits, ← pow_add]
  rw [hshift, magUnits_normal (by norm_num) (by norm_num), hplace]
  ring

theorem nextEnvelope_le_cap {e env : F64} (he : InUnit e) (henv : env.toNat ≤ envelopeCap.toNat) (s : Sample) :
    (nextEnvelope e env s).toNat ≤ envelopeCap.toNat := by
  have henv' := henv.trans_lt envelopeCap_lt_infMag
  have hs := toF_rectify_lt_infMag s
  have h1 := fmul_le_right he hs
  have h2 := fmul_le_right (inUnit_fsub_f1 he) henv'
  have hu1 : magUnits (fmul e (toF (rectify s))).toNat ≤ 2 ^ 15 * oneUnits := by
    refine (magUnits_strictMono.monotone h1).trans ?_
    rw [toF_units (lt_of_le_of_lt (rectify_le s) (by norm_num))]
    exact Nat.mul_le_mul_right _ (rectify_le s)
  have hu2 : magUnits (fmul (fsub f1 e) env).toNat ≤ 2 ^ 69 * oneUnits := by
    rw [← magUnits_two_pow, ← envelopeCap_toNat]
    exact magUnits_strictMono.monotone (h2.trans henv)
  have hone := oneUnits_pos
  rw [nextEnvelope, fadd_nonneg (h1.trans_lt hs) (h2.trans_lt henv')]
  refine roundMag_le_of_lt_mid Nat.one_pos ?_
  rw [magUnits_above_cap, envelopeCap_toNat, magUnits_two_pow]
  omega

/-! The branches. -/

theorem inUnit_fmax {a b c : F64} (ha : InUnit a) (hb : InUnit b) (h : fmax a b = .ok c) : InUnit c := by
  rw [fmax_of_le (lt_infMag_of_inUnit ha).le (lt_infMag_of_inUnit hb).le] at h
  cases h
  split
  · exact hb
  · exact ha

theorem inUnit_fmin {a b c : F64} (ha : InUnit a) (hb : InUnit b) (h : fmin a b = .ok c) : InUnit c := by
  rw [fmin_of_le (lt_infMag_of_inUnit ha).le (lt_infMag_of_inUnit hb).le] at h
  cases h
  split
  · exact hb
  · exact ha

theorem upBranch_inRange {T : U32} {st st' : Regs} (h : InRange st) (hb : upBranch T st = .ok st') : InRange st' := by
  have hin := enterUp_inRange h
  obtain ⟨_, hb', hg⟩ := upBranch_answers T h
  cases hb.symm.trans hb'
  obtain ⟨g, c, -, hc, rfl⟩ := upBranch_ok hb
  exact ⟨hg, hin.floorGain, inUnit_fmax hin.ceilGain hg hc, hin.startPast, hin.endPast⟩

theorem compDown_inRange {st st' : Regs} (h : InRange st) (hb : compDown st = .ok st') : InRange st' := by
  have hin := enterDown_inRange h
  obtain ⟨_, hb', hg⟩ := compDown_answers h
  cases hb.symm.trans hb'
  obtain ⟨g, f, -, hf, rfl⟩ := compDown_ok hb
  exact ⟨hg, inUnit_fmin hin.floorGain hg hf, hin.ceilGain, hin.startPast, hin.endPast⟩

theorem gateDown_inRange {st st' : Regs} (h : InRange st) (hb : gateDown st = .ok st') : InRange st' := by
  have hin := enterDown_inRange h
  obtain ⟨_, hb', hg⟩ := gateDown_answers h
  cases hb.symm.trans hb'
  obtain ⟨g, f, -, hf, rfl⟩ := gateDown_ok hb
  exact ⟨hg, inUnit_fmin hin.floorGain hg hf, hin.ceilGain, hin.startPast, hin.endPast⟩

/-- Exactly one phase counter is not 0 (R36). -/
def OnePhase (st : Regs) : Prop := ¬(st.phaseStart = 0 ↔ st.phaseEnd = 0)

theorem onePhase_of_up {st : Regs} (hs : st.phaseStart ≠ 0) (he : st.phaseEnd = 0) : OnePhase st :=
  fun h => hs (h.2 he)

theorem onePhase_of_down {st : Regs} (hs : st.phaseStart = 0) (he : st.phaseEnd ≠ 0) : OnePhase st :=
  fun h => he (h.1 hs)

theorem UpFrame.onePhase {T : U32} {st st' : Regs} (h : UpFrame T st st') (hi : st.frameIndex ≠ 0)
    (hp : st.phaseStart = 0 ∨ st.phaseEnd = 0) : OnePhase st' := by
  refine onePhase_of_up ?_ ?_
  · rw [h.phaseStart]
    split
    · exact hi
    · next hs => exact hs
  · rw [h.phaseEnd]
    split
    · rfl
    · next hs => exact hp.resolve_left hs

/-- The counters after an entry of the DOWN phase, which both variants make (R78). -/
theorem onePhase_of_enterDown {st st' : Regs} (hi : st.frameIndex ≠ 0) (hp : st.phaseStart = 0 ∨ st.phaseEnd = 0)
    (he : st'.phaseEnd = if st.phaseEnd = 0 then st.frameIndex else st.phaseEnd)
    (hs : st'.phaseStart = if st.phaseEnd = 0 then 0 else st.phaseStart) : OnePhase st' := by
  refine onePhase_of_down ?_ ?_
  · rw [hs]
    split
    · rfl
    · next hne => exact hp.resolve_right hne
  · rw [he]
    split
    · exact hi
    · next hne => exact hne

section
variable {up : Bool} {st st' : Regs}

theorem compBranch_inRange (h : InRange st) (hb : compBranch up st = .ok st') : InRange st' := by
  cases up with
  | true => exact upBranch_inRange h hb
  | false => exact compDown_inRange h hb

theorem gateBranch_inRange (h : InRange st) (hb : gateBranch up st = .ok st') : InRange st' := by
  cases up with
  | true => exact upBranch_inRange h hb
  | false => exact gateDown_inRange h hb

theorem compBranch_onePhase (hi : st.frameIndex ≠ 0) (hp : st.phaseStart = 0 ∨ st.phaseEnd = 0)
    (hb : compBranch up st = .ok st') : OnePhase st' := by
  cases up with
  | true => exact (upBranch_follows hb).2.onePhase hi hp
  | false =>
    obtain ⟨-, hdown⟩ := compDown_follows hb
    exact onePhase_of_enterDown hi hp hdown.phaseEnd hdown.phaseStart

theorem gateBranch_onePhase (hi : st.frameIndex ≠ 0) (hp : st.phaseStart = 0 ∨ st.phaseEnd = 0)
    (hb : gateBranch up st = .ok st') : OnePhase st' := by
  cases up with
  | true => exact (upBranch_follows hb).2.onePhase hi hp
  | false =>
    obtain ⟨-, hdown⟩ := gateDown_follows hb
    exact onePhase_of_enterDown hi hp hdown.phaseEnd hdown.phaseStart

end

/-! A frame. -/

/-- The registers as a frame's branch finds them: FRAME_ADVANCE and ENV_UPDATE done (R84, R90). -/
abbrev atBranch (st : Regs) (s : Sample) : Regs := envUpdate s (frameAdvance st)

theorem frameIndex_succ {st : Regs} (hlt : st.frameIndex.toNat < 2 ^ 64 - 1) :
    (st.frameIndex + 1).toNat = st.frameIndex.toNat + 1 := by
  rw [BitVec.toNat_add_of_lt] <;> simp; omega

theorem frameIndex_succ_ne_zero {st : Regs} (hlt : st.frameIndex.toNat < 2 ^ 64 - 1) : st.frameIndex + 1 ≠ 0 := by
  intro h
  have hsucc := frameIndex_succ hlt
  rw [h] at hsucc
  exact absurd hsucc.symm (Nat.succ_ne_zero _)

theorem phaseCounter_zero_of_legal {st : Regs} (h : Legal st) : st.phaseStart = 0 ∨ st.phaseEnd = 0 := by
  by_cases hi : st.frameIndex = 0
  · exact .inl (h.noFrame hi).1
  · by_contra hne
    exact h.onePhase hi (iff_of_false (fun hs => hne (.inl hs)) fun he => hne (.inr he))

/-- What the branch of a frame on a legal state leaves is legal. -/
theorem legal_of_branch {st st' : Regs} {s : Sample} (h : Legal st) (hlt : st.frameIndex.toNat < 2 ^ 64 - 1)
    (hsame : SameOutsideBranch (atBranch st s) st') (hin : InRange st') (hone : OnePhase st') : Legal st' where
  gain := hin.gain
  floorGain := hin.floorGain
  ceilGain := hin.ceilGain
  exp := hsame.exp ▸ h.exp
  envelope := hsame.envelope ▸ nextEnvelope_le_cap h.exp.2 h.envelope s
  hold := hsame.variant ▸ hsame.hold ▸ h.hold
  noFrame := fun h0 => absurd (hsame.frameIndex.symm.trans h0) (frameIndex_succ_ne_zero hlt)
  onePhase := fun _ => hone
  startPast := hin.startPast
  endPast := hin.endPast

section
variable {st st' : Regs} {s : Sample} {o : Int}

/-- A frame of either variant is a select, a branch and the output sample. -/
theorem frameStep_follows (h : frameStep st s = .ok (st', o)) : SameOutsideBranch (atBranch st s) st' := by
  cases hv : st.variant with
  | comp =>
    rw [frameStep, hv] at h
    obtain ⟨up, -, hb, -⟩ := compStep_ok h
    exact (compBranch_follows hb).1
  | gate =>
    rw [frameStep, hv] at h
    obtain ⟨up, -, hb, -⟩ := gateStep_ok h
    exact (gateBranch_follows hb).1

theorem frameStep_output (h : frameStep st s = .ok (st', o)) : applyGain st' s = .ok o := by
  cases hv : st.variant with
  | comp =>
    rw [frameStep, hv] at h
    obtain ⟨-, -, -, ho⟩ := compStep_ok h
    exact ho
  | gate =>
    rw [frameStep, hv] at h
    obtain ⟨-, -, -, ho⟩ := gateStep_ok h
    exact ho

theorem frameStep_answers (h : Legal st) (hlt : st.frameIndex.toNat < 2 ^ 64 - 1) (s : Sample) :
    ∃ st' o, frameStep st s = .ok (st', o) := by
  cases hv : st.variant with
  | comp =>
    obtain ⟨⟨st', o⟩, hr⟩ := compStep_answers h hlt s
    exact ⟨st', o, by rw [frameStep, hv]; exact hr⟩
  | gate =>
    obtain ⟨⟨st', o⟩, hr⟩ := gateStep_answers h hlt s
    exact ⟨st', o, by rw [frameStep, hv]; exact hr⟩

theorem frameStep_legal (h : Legal st) (hlt : st.frameIndex.toNat < 2 ^ 64 - 1)
    (hstep : frameStep st s = .ok (st', o)) : Legal st' := by
  have hin := frameAdvance_inRange h hlt s
  have hi : (atBranch st s).frameIndex ≠ 0 := frameIndex_succ_ne_zero hlt
  have hp : (atBranch st s).phaseStart = 0 ∨ (atBranch st s).phaseEnd = 0 := by
    simpa using phaseCounter_zero_of_legal h
  cases hv : st.variant with
  | comp =>
    rw [frameStep, hv] at hstep
    obtain ⟨up, -, hb, -⟩ := compStep_ok hstep
    exact legal_of_branch h hlt (compBranch_follows hb).1 (compBranch_inRange hin hb) (compBranch_onePhase hi hp hb)
  | gate =>
    rw [frameStep, hv] at hstep
    obtain ⟨up, -, hb, -⟩ := gateStep_ok hstep
    exact legal_of_branch h hlt (gateBranch_follows hb).1 (gateBranch_inRange hin hb) (gateBranch_onePhase hi hp hb)

end

end Sys2Proof.Proofs
end

section
/-! FEED (45_host_commands R106, 44_pcm_sample_codec R100). The frame loop is a recursion over pairs of bytes, and so are the
proofs about it: what every frame keeps, that a legal state runs them all, that two loops make one, and that the loop with a
cursor and buffers is this one. -/

namespace Sys2Proof.Proofs

open Sys2Proof.Machine Sys2Proof.Safety Sys2Proof.Laws

theorem encodeFrame_length (o : Int) : (encodeFrame o).length = 2 := rfl

/-! What the loop leaves, from any state. -/

/-- The fields that no frame writes are the same in both (10_state section 1). -/
structure SameParams (st st' : Regs) : Prop where
  mode : st'.mode = st.mode
  variant : st'.variant = st.variant
  attack : st'.attack = st.attack
  release : st'.release = st.release
  hold : st'.hold = st.hold
  threshold : st'.threshold = st.threshold
  exp : st'.exp = st.exp

theorem SameParams.refl (st : Regs) : SameParams st st := ⟨rfl, rfl, rfl, rfl, rfl, rfl, rfl⟩

theorem SameParams.trans {st st' st'' : Regs} (h : SameParams st st') (h' : SameParams st' st'') : SameParams st st'' :=
  ⟨h'.mode.trans h.mode, h'.variant.trans h.variant, h'.attack.trans h.attack, h'.release.trans h.release,
    h'.hold.trans h.hold, h'.threshold.trans h.threshold, h'.exp.trans h.exp⟩

theorem frameStep_sameParams {st st' : Regs} {s : Sample} {o : Int} (h : frameStep st s = .ok (st', o)) :
    SameParams st st' := by
  have hsame := frameStep_follows h
  exact ⟨hsame.mode, hsame.variant, hsame.attack, hsame.release, hsame.hold, hsame.threshold, hsame.exp⟩

theorem frameStep_frameIndex {st st' : Regs} {s : Sample} {o : Int} (h : frameStep st s = .ok (st', o)) :
    st'.frameIndex = st.frameIndex + 1 := (frameStep_follows h).frameIndex

theorem frameLoop_sameParams {st st' : Regs} {out : List Byte} :
    ∀ {data : List Byte}, frameLoop st data = .ok (st', out) → SameParams st st'
  | [], h => by
    cases h
    exact .refl st
  | [_], h => by
    cases h
    exact .refl st
  | _ :: _ :: _, h => by
    obtain ⟨st1, o, out', h1, h2, -⟩ := frameLoop_cons_ok h
    exact (frameStep_sameParams h1).trans (frameLoop_sameParams h2)

theorem frameLoop_frameIndex {st st' : Regs} {out : List Byte} :
    ∀ {data : List Byte}, frameLoop st data = .ok (st', out) →
      st.frameIndex.toNat + data.length / 2 ≤ 2 ^ 64 - 1 →
      st'.frameIndex.toNat = st.frameIndex.toNat + data.length / 2
  | [], h, _ => by
    cases h
    rfl
  | [_], h, _ => by
    cases h
    rw [List.length_singleton, Nat.div_eq_of_lt one_lt_two, Nat.add_zero]
  | _ :: _ :: rest, h, hle => by
    obtain ⟨st1, o, out', h1, h2, -⟩ := frameLoop_cons_ok h
    rw [List.length_cons, List.length_cons] at hle ⊢
    have hsucc : st1.frameIndex.toNat = st.frameIndex.toNat + 1 := by
      rw [frameStep_frameIndex h1]
      exact frameIndex_succ (by omega)
    have := frameLoop_frameIndex h2 (by omega)
    omega

theorem frameLoop_length {st st' : Regs} {out : List Byte} :
    ∀ {data : List Byte}, frameLoop st data = .ok (st', out) → data.length % 2 = 0 → out.length = data.length
  | [], h, _ => by
    cases h
    rfl
  | [_], _, heven => by cases heven
  | _ :: _ :: rest, h, heven => by
    obtain ⟨st1, o, out', h1, h2, rfl⟩ := frameLoop_cons_ok h
    rw [List.length_cons, List.length_cons] at heven ⊢
    rw [List.length_append, encodeFrame_length, frameLoop_length h2 (by omega)]
    omega

/-- On a legal state within the counter's range every frame runs, and the state stays legal. -/
theorem frameLoop_answers : ∀ (data : List Byte) {st : Regs}, Legal st →
    st.frameIndex.toNat + data.length / 2 ≤ 2 ^ 64 - 1 →
    ∃ st' out, frameLoop st data = .ok (st', out) ∧ Legal st'
  | [], st, h, _ => ⟨st, [], rfl, h⟩
  | [_], st, h, _ => ⟨st, [], rfl, h⟩
  | b0 :: b1 :: rest, st, h, hle => by
    rw [List.length_cons, List.length_cons] at hle
    have hlt : st.frameIndex.toNat < 2 ^ 64 - 1 := by omega
    obtain ⟨st1, o, h1⟩ := frameStep_answers h hlt (decodeFrame b0 b1)
    have hsucc : st1.frameIndex.toNat = st.frameIndex.toNat + 1 := by
      rw [frameStep_frameIndex h1]
      exact frameIndex_succ hlt
    obtain ⟨st', out, h2, hl⟩ := frameLoop_answers rest (frameStep_legal h hlt h1) (by omega)
    refine ⟨st', encodeFrame o ++ out, ?_, hl⟩
    rw [frameLoop_cons, h1, ok_bind, h2, ok_bind]

/-! Two loops. -/

theorem frameLoop_append : ∀ (a b : List Byte) (st : Regs), a.length % 2 = 0 →
    frameLoop st (a ++ b) =
      (frameLoop st a >>= fun p => frameLoop p.1 b >>= fun q => .ok (q.1, p.2 ++ q.2))
  | [], b, st, _ => by
    rw [frameLoop_nil, ok_bind, List.nil_append]
    cases frameLoop st b <;> rfl
  | [_], _, _, heven => by cases heven
  | b0 :: b1 :: a, b, st, heven => by
    have ha : a.length % 2 = 0 := by rw [List.length_cons, List.length_cons] at heven; omega
    rw [List.cons_append, List.cons_append, frameLoop_cons, frameLoop_cons]
    cases frameStep st (decodeFrame b0 b1) with
    | error f => rfl
    | ok p =>
      rw [ok_bind, ok_bind, frameLoop_append a b p.1 ha]
      cases frameLoop p.1 a with
      | error f => rfl
      | ok q =>
        rw [ok_bind, ok_bind, ok_bind]
        cases frameLoop q.1 b with
        | error f => rfl
        | ok r => rw [ok_bind, ok_bind, ok_bind, List.append_assoc]

/-- The loop over the first frames, and then the rest from where they left the registers. -/
theorem frameLoop_append_ok {a b out : List Byte} {st st' : Regs} (ha : a.length % 2 = 0)
    (h : frameLoop st (a ++ b) = .ok (st', out)) :
    ∃ st1 out1 out2, frameLoop st a = .ok (st1, out1) ∧ frameLoop st1 b = .ok (st', out2) ∧ out = out1 ++ out2 := by
  rw [frameLoop_append a b st ha] at h
  obtain ⟨⟨st1, out1⟩, h1, h⟩ := bind_eq_ok.1 h
  obtain ⟨⟨st2, out2⟩, h2, h⟩ := bind_eq_ok.1 h
  cases h
  exact ⟨st1, out1, out2, h1, h2, rfl⟩

/-! The loop with a cursor. -/

/-- The frame at the cursor, with the bytes before it and after it. -/
theorem memRead_append (beyond : Byte) (front rest : List Byte) (b0 b1 : Byte) :
    memRead beyond (front ++ b0 :: b1 :: rest) front.length = decodeFrame b0 b1 := by
  simp [memRead, decodeFrame]

theorem memWrite_append (front rest : List Byte) (b0 b1 : Byte) (o : Int) :
    memWrite (front ++ b0 :: b1 :: rest) front.length (pattern16 o) = front ++ encodeFrame o ++ rest := by
  simp [memWrite, encodeFrame, List.set_append_right]

theorem appendAfter_ok_bind {α : Type} (x : Except Fault (α × List Byte)) (front mid : List Byte) :
    (x >>= fun q => .ok (q.1, front ++ mid ++ q.2)) =
      ((x >>= fun q => .ok (q.1, mid ++ q.2)) >>= fun q => (.ok (q.1, front ++ q.2) : Except Fault (α × List Byte))) := by
  cases x with
  | error f => rfl
  | ok q => rw [ok_bind, ok_bind, ok_bind, List.append_assoc]

theorem cursorLoop_succ (beyond : Byte) (input : List Byte) (st : Regs) (out : List Byte) (k m : Nat) :
    cursorLoop beyond input st out k (m + 1) =
      (frameStep st (memRead beyond input (2 * k)) >>= fun p =>
        cursorLoop beyond input p.1 (memWrite out (2 * k) (pattern16 p.2)) (k + 1) m) := rfl

theorem inPlaceLoop_succ (beyond : Byte) (st : Regs) (buf : List Byte) (k m : Nat) :
    inPlaceLoop beyond st buf k (m + 1) =
      (frameStep st (memRead beyond buf (2 * k)) >>= fun p =>
        inPlaceLoop beyond p.1 (memWrite buf (2 * k) (pattern16 p.2)) (k + 1) m) := rfl

/-- The loop of R100 from the cursor on, whatever stands in OUT there and past the end of IN. -/
theorem cursorLoop_append (beyond : Byte) : ∀ (rest todo front done : List Byte) (st : Regs) (k : Nat),
    front.length = 2 * k → done.length = 2 * k → rest.length % 2 = 0 → todo.length = rest.length →
    cursorLoop beyond (front ++ rest) st (done ++ todo) k (rest.length / 2) =
      (frameLoop st rest >>= fun q => .ok (q.1, done ++ q.2))
  | [], todo, front, done, st, k, _, _, _, htodo => by
    rw [List.length_eq_zero_iff.1 htodo, frameLoop_nil, ok_bind]
    rfl
  | [_], _, _, _, _, _, _, _, heven, _ => by cases heven
  | _ :: _ :: _, [], _, _, _, _, _, _, _, htodo => by cases htodo
  | _ :: _ :: _, [_], _, _, _, _, _, _, _, htodo => by cases htodo
  | b0 :: b1 :: rest, c0 :: c1 :: todo, front, done, st, k, hfront, hdone, heven, htodo => by
    simp only [List.length_cons] at heven htodo
    have hhalf : (b0 :: b1 :: rest).length / 2 = rest.length / 2 + 1 := by
      simp only [List.length_cons]
      omega
    rw [hhalf, cursorLoop_succ, ← hfront, memRead_append, frameLoop_cons]
    cases frameStep st (decodeFrame b0 b1) with
    | error f => rfl
    | ok p =>
      rw [ok_bind, ok_bind, hfront, ← hdone, memWrite_append, List.append_cons, List.append_cons,
        cursorLoop_append beyond rest todo _ _ p.1 _ (by simp; omega) (by simp [encodeFrame_length]; omega)
          (by omega) (by omega)]
      exact appendAfter_ok_bind _ _ _

/-- The loop of R42 from the cursor on: the frames before it are output already, those from it on input still. -/
theorem inPlaceLoop_append (beyond : Byte) : ∀ (rest done : List Byte) (st : Regs) (k : Nat),
    done.length = 2 * k → rest.length % 2 = 0 →
    inPlaceLoop beyond st (done ++ rest) k (rest.length / 2) =
      (frameLoop st rest >>= fun q => .ok (q.1, done ++ q.2))
  | [], done, st, k, _, _ => by
    rw [frameLoop_nil, ok_bind]
    rfl
  | [_], _, _, _, _, heven => by cases heven
  | b0 :: b1 :: rest, done, st, k, hdone, heven => by
    simp only [List.length_cons] at heven
    have hhalf : (b0 :: b1 :: rest).length / 2 = rest.length / 2 + 1 := by
      simp only [List.length_cons]
      omega
    rw [hhalf, inPlaceLoop_succ, ← hdone, memRead_append, frameLoop_cons]
    cases frameStep st (decodeFrame b0 b1) with
    | error f => rfl
    | ok p =>
      rw [ok_bind, ok_bind, memWrite_append,
        inPlaceLoop_append beyond rest _ p.1 _ (by simp [encodeFrame_length]; omega) (by omega)]
      exact appendAfter_ok_bind _ _ _

theorem appendNothing_bind {α : Type} (x : Except Fault (α × List Byte)) : (x >>= fun q => .ok (q.1, [] ++ q.2)) = x := by
  cases x with
  | error f => rfl
  | ok q => rfl

/-- Settles O24: the loop with the cursor at 0 and nothing before it. -/
theorem frameLoopIsTheCursorLoop : Obligations.FrameLoopIsTheCursorLoop := by
  intro beyond st input out heven hlen
  exact (cursorLoop_append beyond input out [] [] st 0 rfl rfl heven hlen).trans (appendNothing_bind _)

/-- Settles O25: both loops are the recursion over pairs. -/
theorem inPlaceFeedEqualsSeparateBuffers : Obligations.InPlaceFeedEqualsSeparateBuffers := by
  intro beyond st input out heven hlen
  rw [frameLoopIsTheCursorLoop beyond st input out heven hlen]
  exact (inPlaceLoop_append beyond input [] st 0 rfl heven).trans (appendNothing_bind _)

/-! The command. -/

/-- FEED once its three checks have passed (R106, R107). -/
theorem exec_feed_of_ok {data out : List Byte} {s : State} {st : Regs} (hm : s.regs.mode = .ready)
    (heven : data.length % 2 = 0) (hle : s.regs.frameIndex.toNat + data.length / 2 ≤ 2 ^ 64 - 1)
    (hloop : frameLoop s.regs data = .ok (st, out)) :
    exec (.feed data) s = .next (respondOk out { s with regs := st }) := by
  have hlength : ¬ checkLength data.length = false := by simp [checkLength, heven]
  refine (whenReady_ready hm).trans ((if_neg hlength).trans ((if_neg (not_lt.2 hle)).trans ?_))
  rw [hloop]

/-- A FEED that answers OK has passed its checks and run every frame. -/
theorem exec_feed_ok {data payload : List Byte} {s t : State} (h : exec (.feed data) s = .next t)
    (hok : t.response = 0x00#8 :: payload) :
    s.regs.mode = .ready ∧ data.length % 2 = 0 ∧ s.regs.frameIndex.toNat + data.length / 2 ≤ 2 ^ 64 - 1 ∧
      ∃ st, frameLoop s.regs data = .ok (st, payload) ∧ t = respondOk payload { s with regs := st } := by
  rcases execFeed_next h with ⟨-, rfl⟩ | ⟨-, -, rfl⟩ | ⟨hm, hlen, hle, st, out, hloop, rfl⟩
  · rw [raiseStatus_response] at hok
    exact absurd (List.cons.inj hok).1 (by decide)
  · rw [raiseStatus_response] at hok
    exact absurd (List.cons.inj hok).1 (by decide)
  · rw [respondOk_response] at hok
    obtain rfl := (List.cons.inj hok).2
    exact ⟨hm, by simpa [checkLength] using hlen, hle, st, hloop, rfl⟩

/-- On a READY state a FEED of even length that answers a next state answers OK. -/
theorem exec_feed_next {data : List Byte} {s t : State} (hm : s.regs.mode = .ready) (heven : data.length % 2 = 0)
    (h : exec (.feed data) s = .next t) :
    s.regs.frameIndex.toNat + data.length / 2 ≤ 2 ^ 64 - 1 ∧
      ∃ st out, frameLoop s.regs data = .ok (st, out) ∧ t = respondOk out { s with regs := st } := by
  rcases execFeed_next h with ⟨hu, -⟩ | ⟨-, hodd, -⟩ | ⟨-, -, hrun⟩
  · rw [hm] at hu
    cases hu
  · simp [checkLength, heven] at hodd
  · exact hrun

/-- Settles O22: a legal state runs every frame, and the loop keeps its counts. -/
theorem feedRunsEveryFrame : Obligations.FeedRunsEveryFrame := by
  intro data s hm hl heven hle
  obtain ⟨st, out, hloop, -⟩ := frameLoop_answers data hl hle
  exact ⟨st, out, hloop, frameLoop_length hloop heven, frameLoop_frameIndex hloop hle,
    exec_feed_of_ok hm heven hle hloop⟩

/-- Settles O23: an OK answer is that of the loop, which keeps its counts within the range that was checked. -/
theorem frameIndexCountsFrames : Obligations.FrameIndexCountsFrames := by
  intro data payload s t h hok
  obtain ⟨-, heven, hle, st, hloop, rfl⟩ := exec_feed_ok h hok
  exact ⟨frameLoop_frameIndex hloop hle, frameLoop_length hloop heven⟩

/-- Settles O26: the loop over the joined frames, within the range that both FEEDs checked. -/
theorem twoFeedsAreOneFeed : Obligations.TwoFeedsAreOneFeed := by
  intro a b s t u ha hb hm h1 h2
  obtain ⟨hle1, st1, out1, hloop1, rfl⟩ := exec_feed_next hm ha h1
  have hm1 : st1.mode = .ready := (frameLoop_sameParams hloop1).mode.trans hm
  obtain ⟨hle2, st2, out2, hloop2, rfl⟩ := exec_feed_next hm1 hb h2
  have hcount := frameLoop_frameIndex hloop1 hle1
  simp only [respondOk_regs] at hle2 hloop2
  have hloop : frameLoop s.regs (a ++ b) = .ok (st2, out1 ++ out2) := by
    rw [frameLoop_append a b s.regs ha, hloop1, ok_bind, hloop2, ok_bind]
  exact exec_feed_of_ok hm (by rw [List.length_append]; omega) (by rw [List.length_append]; omega) hloop

/-- Settles O27: the loop runs the first frames before it meets the others. -/
theorem outputIgnoresLaterFrames : Obligations.OutputIgnoresLaterFrames := by
  intro st st1 st2 a b c out1 out2 ha h1 h2
  obtain ⟨stb, outb, restb, hab, -, rfl⟩ := frameLoop_append_ok ha h1
  obtain ⟨stc, outc, restc, hac, -, rfl⟩ := frameLoop_append_ok ha h2
  cases hab.symm.trans hac
  have hlen := frameLoop_length hab ha
  rw [← hlen, List.take_left, List.take_left]

/-! Silence. -/

theorem replicate_frames_succ (m : Nat) :
    List.replicate (2 * (m + 1)) (0x00#8) = 0x00#8 :: 0x00#8 :: List.replicate (2 * m) 0x00#8 := rfl

theorem encodeFrame_zero : encodeFrame 0 = [0x00#8, 0x00#8] := by decide

theorem decodeFrame_zero : decodeFrame 0x00#8 0x00#8 = 0 := by decide

/-- A gain in [0, 1] leaves a silent frame silent, and every frame of a legal state has one (R34, R81). -/
theorem frameLoop_silence : ∀ (m : Nat) {st : Regs}, Legal st → st.frameIndex.toNat + m ≤ 2 ^ 64 - 1 →
    ∃ st', frameLoop st (List.replicate (2 * m) 0x00#8) = .ok (st', List.replicate (2 * m) 0x00#8) ∧ Legal st'
  | 0, st, h, _ => ⟨st, rfl, h⟩
  | m + 1, st, h, hle => by
    have hlt : st.frameIndex.toNat < 2 ^ 64 - 1 := by omega
    obtain ⟨st1, o, h1⟩ := frameStep_answers h hlt 0
    have hl1 := frameStep_legal h hlt h1
    obtain rfl : o = 0 := Except.ok.inj ((frameStep_output h1).symm.trans (applyGain_of_silence hl1.gain))
    have hsucc : st1.frameIndex.toNat = st.frameIndex.toNat + 1 := by
      rw [frameStep_frameIndex h1]
      exact frameIndex_succ hlt
    obtain ⟨st', hloop, hl⟩ := frameLoop_silence m hl1 (by omega)
    refine ⟨st', ?_, hl⟩
    rw [replicate_frames_succ, frameLoop_cons, decodeFrame_zero, h1, ok_bind, hloop, ok_bind, encodeFrame_zero]
    rfl

/-- Settles O28: the loop on silence, within the range that FEED checks. -/
theorem silenceGivesSilence : Obligations.SilenceGivesSilence := by
  intro m s hm hl hle
  obtain ⟨st, hloop, -⟩ := frameLoop_silence m hl hle
  have hlen : (List.replicate (2 * m) (0x00#8)).length = 2 * m := List.length_replicate
  exact ⟨st, exec_feed_of_ok hm (by omega) (by omega) hloop⟩

end Sys2Proof.Proofs
end

section
/-! The commands over the whole state: what each writes (10_state section 1), that every step keeps the invariant (10_state
section 8) and meets no NaN from it (00_scope R15), and that before construction no field is read (70 R134). -/

namespace Sys2Proof.Proofs

open Sys2Proof.Machine Sys2Proof.Safety Sys2Proof.Laws

/-- Settles O15: the mode check passes and the variant check fails. -/
theorem holdIsIllegalOnACompressor : Obligations.HoldIsIllegalOnACompressor :=
  fun _ _ hm hv => ⟨exec_getHold_of_comp hm hv, exec_setHold_of_comp hm hv⟩

/-! The commands by what they can answer. -/

/-- Every command is a construction, a FEED, or a GET or SET of one register. -/
theorem instr_cases (i : Instr) :
    constructs i = true ∨ (∃ data, i = .feed data) ∨ (∃ r, i = getInstr r) ∨ ∃ v r, i = setInstr v r := by
  cases i with
  | initC => exact .inl rfl
  | initG => exact .inl rfl
  | feed data => exact .inr (.inl ⟨data, rfl⟩)
  | getAttack => exact .inr (.inr (.inl ⟨.attack, rfl⟩))
  | getRelease => exact .inr (.inr (.inl ⟨.release, rfl⟩))
  | getHold => exact .inr (.inr (.inl ⟨.hold, rfl⟩))
  | getThreshold => exact .inr (.inr (.inl ⟨.threshold, rfl⟩))
  | setAttack v => exact .inr (.inr (.inr ⟨v, .attack, rfl⟩))
  | setRelease v => exact .inr (.inr (.inr ⟨v, .release, rfl⟩))
  | setHold v => exact .inr (.inr (.inr ⟨v, .hold, rfl⟩))
  | setThreshold v => exact .inr (.inr (.inr ⟨v, .threshold, rfl⟩))

/-- A GET or SET passes its checks or raises an error (R108 to R115). -/
theorem exec_param {i : Instr} {r : ParamReg} (hi : i = getInstr r ∨ ∃ v, i = setInstr v r) (s : State) :
    (∃ e, exec i s = .next (raiseStatus e s)) ∨ (s.regs.mode = .ready ∧ (r = .hold → s.regs.variant = .gate)) := by
  cases hm : s.regs.mode with
  | uninit =>
    refine .inl ⟨.notInitialised, exec_of_uninit ?_ hm⟩
    rcases hi with rfl | ⟨v, rfl⟩ <;> cases r <;> rfl
  | ready =>
    by_cases hr : r = .hold ∧ s.regs.variant = .comp
    · obtain ⟨rfl, hv⟩ := hr
      refine .inl ⟨.illegalCommand, ?_⟩
      rcases hi with rfl | ⟨v, rfl⟩
      · exact exec_getHold_of_comp hm hv
      · exact exec_setHold_of_comp hm hv
    · refine .inr ⟨rfl, fun h => ?_⟩
      cases hv : s.regs.variant with
      | comp => exact absurd ⟨h, hv⟩ hr
      | gate => rfl

theorem exec_getInstr (r : ParamReg) (s : State) :
    (∃ e, exec (getInstr r) s = .next (raiseStatus e s)) ∨
      exec (getInstr r) s = .next (respondOk (paramPayload r s.regs) s) := by
  rcases exec_param (.inl rfl) s with he | ⟨hm, hv⟩
  · exact .inl he
  · exact .inr (exec_getInstr_of_ready hm hv)

theorem exec_setInstr (v : U32) (r : ParamReg) (s : State) :
    (∃ e, exec (setInstr v r) s = .next (raiseStatus e s)) ∨
      ((r = .hold → s.regs.variant = .gate) ∧
        exec (setInstr v r) s = .next (respondOk [] { s with regs := writeParam r v s.regs })) := by
  rcases exec_param (.inr ⟨v, rfl⟩) s with he | ⟨hm, hv⟩
  · exact .inl he
  · exact .inr ⟨hv, exec_setInstr_of_ready hm hv⟩

/-! The writers of each field. -/

/-- The columns "written by" of 10_state section 1, for a command that constructs nothing. -/
structure WrittenBy (i : Instr) (st st' : Regs) : Prop where
  mode : st'.mode = st.mode
  variant : st'.variant = st.variant
  exp : st'.exp = st.exp
  attack : (∀ v, i ≠ .setAttack v) → st'.attack = st.attack
  release : (∀ v, i ≠ .setRelease v) → st'.release = st.release
  hold : (∀ v, i ≠ .setHold v) → st'.hold = st.hold
  threshold : (∀ v, i ≠ .setThreshold v) → st'.threshold = st.threshold
  datapath : (∀ d, i ≠ .feed d) →
    st'.gain = st.gain ∧ st'.envelope = st.envelope ∧ st'.floorGain = st.floorGain ∧ st'.ceilGain = st.ceilGain ∧
      st'.frameIndex = st.frameIndex ∧ st'.phaseStart = st.phaseStart ∧ st'.phaseEnd = st.phaseEnd

theorem writtenBy_refl (i : Instr) (st : Regs) : WrittenBy i st st :=
  ⟨rfl, rfl, rfl, fun _ => rfl, fun _ => rfl, fun _ => rfl, fun _ => rfl,
    fun _ => ⟨rfl, rfl, rfl, rfl, rfl, rfl, rfl⟩⟩

theorem writtenBy_feed {data : List Byte} {st st' : Regs} (h : SameParams st st') : WrittenBy (.feed data) st st' :=
  ⟨h.mode, h.variant, h.exp, fun _ => h.attack, fun _ => h.release, fun _ => h.hold, fun _ => h.threshold,
    fun hne => absurd rfl (hne data)⟩

theorem writtenBy_setInstr (v : U32) (r : ParamReg) (st : Regs) : WrittenBy (setInstr v r) st (writeParam r v st) := by
  cases r with
  | attack => exact { writtenBy_refl _ st with attack := fun hne => absurd rfl (hne v) }
  | release => exact { writtenBy_refl _ st with release := fun hne => absurd rfl (hne v) }
  | hold => exact { writtenBy_refl _ st with hold := fun hne => absurd rfl (hne v) }
  | threshold => exact { writtenBy_refl _ st with threshold := fun hne => absurd rfl (hne v) }

/-- A command that constructs nothing writes no port, and of the registers its own. -/
theorem exec_writes {i : Instr} {s t : State} (hi : constructs i = false) (h : exec i s = .next t) :
    t.port = s.port ∧ WrittenBy i s.regs t.regs := by
  rcases instr_cases i with hc | ⟨data, rfl⟩ | ⟨r, rfl⟩ | ⟨v, r, rfl⟩
  · rw [hi] at hc
    cases hc
  · rcases execFeed_next h with ⟨-, rfl⟩ | ⟨-, -, rfl⟩ | ⟨-, -, -, st, out, hloop, rfl⟩
    · exact ⟨rfl, writtenBy_refl _ _⟩
    · exact ⟨rfl, writtenBy_refl _ _⟩
    · exact ⟨rfl, writtenBy_feed (frameLoop_sameParams hloop)⟩
  · rcases exec_getInstr r s with ⟨e, he⟩ | he
    · cases h.symm.trans he
      exact ⟨rfl, writtenBy_refl _ _⟩
    · cases h.symm.trans he
      exact ⟨rfl, writtenBy_refl _ _⟩
  · rcases exec_setInstr v r s with ⟨e, he⟩ | ⟨-, he⟩
    · cases h.symm.trans he
      exact ⟨rfl, writtenBy_refl _ _⟩
    · cases h.symm.trans he
      exact ⟨rfl, writtenBy_setInstr v r s.regs⟩

/-- Settles O21: by the command, each writer's own columns. -/
theorem eachFieldHasItsWriters : Obligations.EachFieldHasItsWriters := by
  intro i s t hi h
  obtain ⟨hport, hw⟩ := exec_writes hi h
  exact ⟨hport, hw.mode, hw.variant, hw.exp, hw.attack, hw.release, hw.hold, hw.threshold, hw.datapath⟩

/-! The invariant. -/

/-- Settles O1: nothing is claimed of the registers while `mode` is UNINIT. -/
theorem powerOnSatisfiesTheInvariant : Obligations.PowerOnSatisfiesTheInvariant := by
  refine ⟨rfl, rfl, fun hm => ?_⟩
  cases hm

/-- The range of EXP_VALID is that of the invariant's `exp` (R22, R105). -/
theorem exp_inUnit_of_expValid {e : F64} (h : expValid e = true) : 0 < e.toNat ∧ InUnit e := by
  obtain ⟨hfin, hpos, hle⟩ := expValid_iff.1 h
  have hneg : fneg e = false := by
    by_contra hn
    rw [value_eq_withSign, Bool.eq_true_of_not_eq_false hn] at hpos
    exact absurd hpos (not_lt.2 (div_nonpos_of_nonpos_of_nonneg (neg_nonpos.2 (Nat.cast_nonneg _))
      oneUnits_cast_pos.le))
  refine ⟨Nat.pos_of_ne_zero fun h0 => ?_, (unitPatternsAreValuesZeroToOne e).2 ⟨hfin, hneg, hle⟩⟩
  have he : e = f0 := BitVec.eq_of_toNat_eq (h0.trans f0_toNat.symm)
  rw [he, value_f0] at hpos
  exact absurd hpos (lt_irrefl 0)

/-- What CONSTRUCT leaves is legal: gain 1.0, the extremes and the envelope 0, the counters 0 (R135). -/
theorem legal_construct {v : Variant} {a r h t : U32} {e : F64} (he : 0 < e.toNat ∧ InUnit e)
    (hh : v = .comp → h = 0) : Legal (construct v a r h t e) where
  gain := inUnit_f1
  floorGain := inUnit_f0
  ceilGain := inUnit_f0
  exp := he
  envelope := Nat.zero_le _
  hold := hh
  noFrame := fun _ => ⟨rfl, rfl⟩
  onePhase := fun hi => absurd rfl hi
  startPast := le_rfl
  endPast := le_rfl

/-- The invariant reads `hold` of the parameters only, and SET.HOLD runs on a GATE only (R20, R114). -/
theorem legal_writeParam {r : ParamReg} {v : U32} {st : Regs} (h : Legal st) (hr : r = .hold → st.variant = .gate) :
    Legal (writeParam r v st) := by
  cases r with
  | hold =>
    refine { h with hold := fun hv => ?_ }
    rw [writeParam_hold_variant, hr rfl] at hv
    cases hv
  | _ => exact { h with }

theorem constructWith_keeps_invariant {v : Variant} {a r h t : U32} {exp : Option F64} {s u : State}
    (hh : v = .comp → h = 0) (hinv : Invariant s) (hu : constructWith v a r h t exp s = .next u) : Invariant u := by
  rcases constructWith_next hu with ⟨hvalid, rfl⟩ | ⟨-, rfl⟩
  · exact fun _ => legal_construct (exp_inUnit_of_expValid hvalid) hh
  · exact hinv

theorem exec_keeps_invariant {i : Instr} {s t : State} (hinv : Invariant s) (h : exec i s = .next t) : Invariant t := by
  rcases instr_cases i with hc | ⟨data, rfl⟩ | ⟨r, rfl⟩ | ⟨v, r, rfl⟩
  · cases i with
    | initC => exact constructWith_keeps_invariant (fun _ => rfl) hinv h
    | initG => exact constructWith_keeps_invariant (v := .gate) nofun hinv h
    | _ => cases hc
  · rcases execFeed_next h with ⟨-, rfl⟩ | ⟨-, -, rfl⟩ | ⟨hm, -, hle, st, out, hloop, rfl⟩
    · exact hinv
    · exact hinv
    · obtain ⟨st', out', hloop', hl⟩ := frameLoop_answers data (hinv hm) hle
      cases hloop.symm.trans hloop'
      exact fun _ => hl
  · rcases exec_getInstr r s with ⟨e, he⟩ | he
    · cases h.symm.trans he
      exact hinv
    · cases h.symm.trans he
      exact hinv
  · rcases exec_setInstr v r s with ⟨e, he⟩ | ⟨hv, he⟩
    · cases h.symm.trans he
      exact hinv
    · cases h.symm.trans he
      intro hm
      have hm0 : s.regs.mode = .ready := (writtenBy_setInstr v r s.regs).mode.symm.trans hm
      exact legal_writeParam (hinv hm0) hv

/-- Settles O52: an idle step and an illegal header keep the registers, and a command that runs keeps the invariant. -/
theorem everyStepKeepsTheInvariant : Obligations.EveryStepKeepsTheInvariant := by
  intro s t hinv h
  rcases step_next h with ⟨-, rfl⟩ | ⟨i, rest, -, hexec⟩ | ⟨-, rest, -, rfl⟩
  · exact hinv
  · exact exec_keeps_invariant (s := { s with port := rest }) hinv hexec
  · exact hinv

/-! No NaN. -/

/-- FEED faults only where the frame loop does. -/
theorem execFeed_fault {data : List Byte} {s : State} {f : Fault} (h : execFeed data s = .fault f) :
    s.regs.mode = .ready ∧ s.regs.frameIndex.toNat + data.length / 2 ≤ 2 ^ 64 - 1 ∧
      frameLoop s.regs data = .error f := by
  cases hm : s.regs.mode with
  | uninit =>
    rw [execFeed, whenReady_uninit hm] at h
    cases h
  | ready =>
    rw [execFeed, whenReady_ready hm] at h
    split at h
    · cases h
    · split at h
      · cases h
      · next hle =>
        split at h
        · cases h
        · next hloop =>
          cases h
          exact ⟨rfl, not_lt.1 hle, hloop⟩

theorem exec_ne_fault {i : Instr} {s : State} (hinv : Invariant s) (f : Fault) : exec i s ≠ .fault f := by
  intro h
  rcases instr_cases i with hc | ⟨data, rfl⟩ | ⟨r, rfl⟩ | ⟨v, r, rfl⟩
  · obtain ⟨v, a, r, hold, t, exp, hconstruct⟩ := exec_of_constructs hc
    obtain ⟨u, hu⟩ := constructWith_answers v a r hold t exp s
    cases h.symm.trans ((hconstruct s).trans hu)
  · obtain ⟨hm, hle, hloop⟩ := execFeed_fault h
    obtain ⟨st, out, hok, -⟩ := frameLoop_answers data (hinv hm) hle
    cases hloop.symm.trans hok
  · rcases exec_getInstr r s with ⟨e, he⟩ | he
    · cases h.symm.trans he
    · cases h.symm.trans he
  · rcases exec_setInstr v r s with ⟨e, he⟩ | ⟨-, he⟩
    · cases h.symm.trans he
    · cases h.symm.trans he

/-- Settles O53: only a FEED runs frames, and a legal state runs them all. -/
theorem noLegalStepFaults : Obligations.NoLegalStepFaults := by
  intro s f hinv h
  obtain ⟨i, rest, -, hexec⟩ := step_fault h
  exact exec_ne_fault (s := { s with port := rest }) hinv f hexec

/-! Before construction. -/

/-- How the next states of two UNINIT states agree: the answers are one, and so are the registers where the step
constructed them; where it did not, each keeps its own. -/
structure AnswersAlike (s s' t t' : State) : Prop where
  port : t'.port = t.port
  response : t'.response = t.response
  mode : t'.regs.mode = t.regs.mode
  ready : t.regs.mode = .ready → t'.regs = t.regs
  uninit : t.regs.mode = .uninit → t.regs = s.regs ∧ t'.regs = s'.regs

section
variable {s s' : State} (hm : s.regs.mode = .uninit) (hm' : s'.regs.mode = .uninit)
include hm hm'

theorem answersAlike_of_regs_kept {t t' : State} (hport : t'.port = t.port) (hresp : t'.response = t.response)
    (ht : t.regs = s.regs) (ht' : t'.regs = s'.regs) : AnswersAlike s s' t t' := by
  refine ⟨hport, hresp, by rw [ht, ht', hm, hm'], fun hready => ?_, fun _ => ⟨ht, ht'⟩⟩
  rw [ht, hm] at hready
  cases hready

theorem constructWith_alike (v : Variant) (a r h t : U32) (exp : Option F64) (hport : s'.port = s.port) :
    ∃ u u', constructWith v a r h t exp s = .next u ∧ constructWith v a r h t exp s' = .next u' ∧
      AnswersAlike s s' u u' := by
  cases hvalid : expValid (expOperand exp) with
  | true =>
    refine ⟨_, _, constructWith_of_expValid hvalid, constructWith_of_expValid hvalid, hport, rfl, rfl, fun _ => rfl, ?_⟩
    intro hu
    cases hu
  | false =>
    exact ⟨_, _, constructWith_of_not_expValid hvalid, constructWith_of_not_expValid hvalid,
      answersAlike_of_regs_kept hm hm' hport rfl rfl rfl⟩

/-- A construction builds from its operands, and any other command stops at the mode check. -/
theorem exec_alike (i : Instr) (hport : s'.port = s.port) :
    ∃ t t', exec i s = .next t ∧ exec i s' = .next t' ∧ AnswersAlike s s' t t' := by
  cases hc : constructs i with
  | true =>
    obtain ⟨v, a, r, h, t, exp, hconstruct⟩ := exec_of_constructs hc
    rw [hconstruct, hconstruct]
    exact constructWith_alike hm hm' v a r h t exp hport
  | false =>
    exact ⟨_, _, exec_of_uninit hc hm, exec_of_uninit hc hm', answersAlike_of_regs_kept hm hm' hport rfl rfl rfl⟩

/-- What a step finds depends on the port alone. -/
theorem step_alike (hport : s'.port = s.port) (hresp : s'.response = s.response) :
    (step s = .refused .transportError ∧ step s' = .refused .transportError) ∨
      ∃ t t', step s = .next t ∧ step s' = .next t' ∧ AnswersAlike s s' t t' := by
  by_cases hnil : s.port = []
  · exact .inr ⟨s, s', idleBlockChangesNothing s hnil, idleBlockChangesNothing s' (hport.trans hnil),
      answersAlike_of_regs_kept hm hm' hport hresp rfl rfl⟩
  · have hnil' : s'.port ≠ [] := hport ▸ hnil
    cases hd : decode s.port with
    | ok p =>
      obtain ⟨i, rest⟩ := p
      obtain ⟨t, t', ht, ht', halike⟩ :=
        exec_alike (s := { s with port := rest }) (s' := { s' with port := rest }) hm hm' i rfl
      rw [step, fetch_ok hd, step, fetch_ok (hport ▸ hd)]
      exact .inr ⟨t, t', ht, ht', halike.port, halike.response, halike.mode, halike.ready, halike.uninit⟩
    | error e =>
      cases e with
      | illegalHeader w rest =>
        rw [step, fetch_illegal hd, step, fetch_illegal (hport ▸ hd)]
        exact .inr ⟨_, _, rfl, rfl, answersAlike_of_regs_kept hm hm' rfl rfl rfl rfl⟩
      | incomplete =>
        rw [step, fetch_incomplete hnil hd, step, fetch_incomplete hnil' (hport ▸ hd)]
        exact .inl ⟨rfl, rfl⟩

end

/-- Settles O54: both steps are refused, or both answer, and answer alike. -/
theorem unconstructedFieldsAreNeverRead : Obligations.UnconstructedFieldsAreNeverRead := by
  intro s s' hm hm' hport hresp
  rcases step_alike hm hm' hport hresp with ⟨h, h'⟩ | ⟨t, t', h, h', halike⟩
  · rw [h, h']
    exact ⟨fun r => Iff.rfl, nofun, nofun⟩
  · rw [h, h']
    refine ⟨fun r => ⟨nofun, nofun⟩, nofun, fun u hu => ?_⟩
    cases hu
    exact ⟨t', rfl, halike.port, halike.response, halike.mode, halike.ready, halike.uninit⟩

end Sys2Proof.Proofs
end

section
/-! New instances frame by frame: the first frame of a Compressor (42 R89), and a Compressor and a Gate on silence (42 R89, 43
R96). Each run is an induction over frames with what the state holds after `f` of them: `SilentComp` and `SilentGate`. -/

namespace Sys2Proof.Proofs

open Sys2Proof.Machine Sys2Proof.Safety Sys2Proof.Laws

theorem fsub_f1_f0 : fsub f1 f0 = f1 := by
  apply BitVec.eq_of_toNat_eq
  rw [fsub_f1_pattern inUnit_f0, f0_toNat, magUnits_zero, Nat.sub_zero, ← magUnits_f1,
    roundMag_magUnits infMag_finite_lt_f1.le]

theorem fsub_f1_f1 : fsub f1 f1 = f0 := by
  apply BitVec.eq_of_toNat_eq
  rw [fsub_f1_pattern inUnit_f1, magUnits_f1, Nat.sub_self, roundMag_zero, f0_toNat]

/-! The first frame of a phase: the ramp stands at its base (R75 to R80). -/

theorem upBranch_entry {T : U32} {st : Regs} (hT : T ≠ 0) (hs : st.phaseStart = 0) (hg : InUnit st.gain)
    (hf : InUnit st.floorGain) : upBranch T st = .ok { st with
      ceilGain := if st.gain.toNat < st.floorGain.toNat then st.floorGain else st.gain
      gain := st.floorGain, phaseStart := st.frameIndex, phaseEnd := 0 } := by
  have helapsed : elapsedUp (enterUp st) = 0 := by
    rw [enterUp_of_zero hs]
    exact Int.sub_self _
  rw [upBranch, helapsed, rampUp_base hT (by rwa [enterUp_floorGain]), ok_bind, enterUp_of_zero hs]
  exact trackUp_eq hf hg

theorem compDown_entry {st : Regs} (hT : st.attack ≠ 0) (he : st.phaseEnd = 0) (hg : st.gain = f1)
    (hc : st.ceilGain = f0) : compDown st = .ok { st with
      floorGain := f0, ceilGain := f1, gain := f0, phaseEnd := st.frameIndex, phaseStart := 0 } := by
  have henter : enterDown st = { st with
      floorGain := f1, ceilGain := f1, phaseEnd := st.frameIndex, phaseStart := 0 } := by
    rw [enterDown_of_zero he, hg, hc, fsub_f1_f0]
  have helapsed : elapsedDown (enterDown st) = 0 := by
    rw [henter]
    exact Int.sub_self _
  have hbase : rampDown (enterDown st) 0 (enterDown st).attack = .ok f0 := by
    rw [← fsub_f1_f1, henter]
    exact rampDown_base hT inUnit_f1
  rw [compDown, helapsed, hbase, ok_bind, henter]
  exact trackDown_eq inUnit_f0 inUnit_f1

/-- Settles O44: both branches enter their phase, the UP ramp at `floorGain` = 0.0 and the DOWN ramp at 1.0 - 1.0. -/
theorem firstCompressorFrameIsSilent : Obligations.FirstCompressorFrameIsSilent := by
  intro a r t e s ha hr hpos he
  have henv := nextEnvelope_le_cap he (env := f0) (Nat.zero_le _) s
  obtain ⟨up, hup⟩ := compSelect_answers (st := atBranch (construct .comp a r 0 t e) s)
    (henv.trans_lt envelopeCap_lt_infMag) inUnit_f1
  suffices hbranch : ∃ st, compBranch up (atBranch (construct .comp a r 0 t e) s) = .ok st ∧ st.gain = f0 ∧
      st.ceilGain = f1 ∧ st.floorGain = f0 ∧ st.frameIndex = 1 by
    obtain ⟨st, hb, hg, hc, hf, hi⟩ := hbranch
    exact ⟨st, bind_eq_ok.2 ⟨up, hup, bind_eq_ok.2 ⟨st, hb, bind_eq_ok.2 ⟨0, applyGain_of_gain_zero hg s, rfl⟩⟩⟩,
      hg, hc, hf, hi⟩
  cases up with
  | true => exact ⟨_, upBranch_entry hr rfl inUnit_f1 inUnit_f0, rfl, rfl, rfl, rfl⟩
  | false => exact ⟨_, compDown_entry ha rfl rfl rfl, rfl, rfl, rfl, rfl⟩

/-! Runs on silence. -/

theorem toF_zero_toNat : (toF (0 : Nat)).toNat = 0 := by rw [toF_nonneg, Nat.zero_mul, roundMag_zero]

/-- Silence leaves an envelope of 0 at 0 (R70). -/
theorem nextEnvelope_silent {e : F64} (he : InUnit e) : nextEnvelope e f0 0 = f0 := by
  have hs : (toF (rectify 0)).toNat = 0 := toF_zero_toNat
  have h1 := fmul_zero_right (lt_infMag_of_inUnit he) hs
  have h2 := fmul_zero_right (lt_infMag_of_inUnit (inUnit_fsub_f1 he)) f0_toNat
  have hsum := fadd_zero_right (a := fmul e (toF (rectify 0))) (h1 ▸ Nat.zero_lt_of_lt infMag_finite_lt_f1) h2
  exact BitVec.eq_of_toNat_eq ((congrArg BitVec.toNat hsum).trans (h1.trans f0_toNat.symm))

/-- A property of the number of frames and the registers that every silent frame carries on holds after `m` of them. -/
theorem frameLoop_silent_induction {P : Nat → Regs → Prop}
    (hstep : ∀ {f : Nat} {st : Regs}, P f st → f < 2 ^ 64 - 1 →
      ∃ st' o, frameStep st 0 = .ok (st', o) ∧ P (f + 1) st') :
    ∀ (m : Nat) {f : Nat} {st : Regs}, P f st → f + m < 2 ^ 64 →
      ∃ st' out, frameLoop st (List.replicate (2 * m) 0x00#8) = .ok (st', out) ∧ P (f + m) st'
  | 0, _, st, h, _ => ⟨st, [], rfl, h⟩
  | m + 1, f, st, h, hle => by
    obtain ⟨st1, o, h1, hp1⟩ := hstep h (by omega)
    obtain ⟨st', out, h2, hp⟩ := frameLoop_silent_induction hstep m hp1 (by omega)
    refine ⟨st', encodeFrame o ++ out, ?_, by rwa [show f + (m + 1) = f + 1 + m by omega]⟩
    rw [replicate_frames_succ, frameLoop_cons, decodeFrame_zero, h1, ok_bind, h2, ok_bind]

/-- What both runs on silence hold after `f` frames. -/
structure SilentRun (f : Nat) (st : Regs) : Prop where
  legal : Legal st
  envelope : st.envelope = f0
  frameIndex : st.frameIndex.toNat = f

section
variable {f : Nat} {st st' : Regs} {o : Int}

theorem SilentRun.atBranch_envelope (h : SilentRun f st) : (atBranch st 0).envelope = f0 := by
  rw [envUpdate_envelope, frameAdvance_envelope, h.envelope]
  exact nextEnvelope_silent h.legal.exp.2

theorem SilentRun.frameIndex_lt (h : SilentRun f st) (hf : f < 2 ^ 64 - 1) : st.frameIndex.toNat < 2 ^ 64 - 1 :=
  h.frameIndex ▸ hf

theorem SilentRun.next (h : SilentRun f st) (hf : f < 2 ^ 64 - 1) (hstep : frameStep st 0 = .ok (st', o)) :
    SilentRun (f + 1) st' where
  legal := frameStep_legal h.legal (h.frameIndex_lt hf) hstep
  envelope := (frameStep_follows hstep).envelope.trans h.atBranch_envelope
  frameIndex := by rw [frameStep_frameIndex hstep, frameIndex_succ (h.frameIndex_lt hf), h.frameIndex]

/-- The counter of the phase entered on frame 1, as an entry sets it (R77, R78). -/
theorem SilentRun.entry (h : SilentRun f st) {c : U64} (hc : c = if f = 0 then 0 else 1) :
    (if c = 0 then (atBranch st 0).frameIndex else c) = 1 := by
  rw [hc]
  by_cases h0 : f = 0
  · have hi : st.frameIndex = 0 := BitVec.eq_of_toNat_eq (h.frameIndex.trans h0)
    rw [if_pos h0, if_pos rfl, envUpdate_frameIndex, frameAdvance_frameIndex, hi]
    rfl
  · rw [if_neg h0, if_neg (by decide)]

end

/-! The Compressor. -/

/-- The ramp ran on the elapsed count that the frame leaves (R75). -/
theorem UpFrame.ramp {T : U32} {st st' : Regs} (h : UpFrame T st st') :
    rampUp st' (elapsedUp st') T = .ok st'.gain := by
  have hgain : rampUp st (elapsedUp st') T = .ok st'.gain := h.gain
  rwa [rampUp, ← h.floorGain] at hgain

/-- A new Compressor after `f` silent frames. -/
structure SilentComp (r t : U32) (f : Nat) (st : Regs) : Prop extends SilentRun f st where
  variant : st.variant = .comp
  release : st.release = r
  threshold : st.threshold = t
  floorGain : st.floorGain = f0
  phaseStart : st.phaseStart = if f = 0 then 0 else 1
  gain : f ≠ 0 → rampUp st ((f - 1 : Nat) : Int) r = .ok st.gain

theorem silentComp_construct (a r : U32) {t : U32} {e : F64} (he : 0 < e.toNat ∧ InUnit e) :
    SilentComp r t 0 (construct .comp a r 0 t e) where
  legal := legal_construct he fun _ => rfl
  envelope := rfl
  frameIndex := rfl
  variant := rfl
  release := rfl
  threshold := rfl
  floorGain := rfl
  phaseStart := rfl
  gain := fun h => absurd rfl h

theorem SilentComp.step {r t : U32} {f : Nat} {st : Regs} (ht : t ≠ 0) (h : SilentComp r t f st)
    (hf : f < 2 ^ 64 - 1) : ∃ st' o, frameStep st 0 = .ok (st', o) ∧ SilentComp r t (f + 1) st' := by
  obtain ⟨st', o, hstep⟩ := frameStep_answers h.legal (h.frameIndex_lt hf) 0
  have hrun := h.next hf hstep
  have hsame := frameStep_sameParams hstep
  have hcomp : compStep st 0 = .ok (st', o) := by rwa [frameStep, h.variant] at hstep
  obtain ⟨up, hup, hbranch, -⟩ := compStep_ok hcomp
  have henv := congrArg BitVec.toNat h.atBranch_envelope
  have hprod : (fmul (atBranch st 0).envelope (atBranch st 0).gain).toNat = 0 :=
    fmul_zero_left henv (lt_infMag_of_inUnit h.legal.gain)
  have hup' := compSelect_of_zero (st := atBranch st 0) (henv ▸ Nat.zero_lt_of_lt infMag_finite_lt_f1) h.legal.gain
    hprod (h.threshold.trans_ne ht)
  cases hup.symm.trans hup'
  obtain ⟨-, hframe⟩ := upBranch_follows hbranch
  have hstart : st'.phaseStart = 1 := hframe.phaseStart.trans (h.entry h.phaseStart)
  have helapsed : elapsedUp st' = ((f + 1 - 1 : Nat) : Int) := by
    have hone : (1 : U64).toNat = 1 := rfl
    rw [elapsedUp, hrun.frameIndex, hstart, hone]
    omega
  refine ⟨st', o, hstep, { hrun with
    variant := hsame.variant.trans h.variant
    release := hsame.release.trans h.release
    threshold := hsame.threshold.trans h.threshold
    floorGain := hframe.floorGain.trans h.floorGain
    phaseStart := hstart.trans (if_neg (Nat.succ_ne_zero f)).symm
    gain := fun _ => ?_ }⟩
  have hramp := hframe.ramp
  rwa [helapsed, show (atBranch st 0).release = r from h.release] at hramp

/-- The ratio is 1.0 when the count reaches the timer. -/
theorem rampQ_self {T : U32} (hT : T ≠ 0) : (rampQ T.toNat T).toNat = f1.toNat := by
  have hpos := lt_of_lt_of_le oneUnits_pos (one_le_magUnits_toF_u32 hT)
  rw [rampQ_of_finite hT (toF_u32_lt_infMag T), Nat.mul_comm, ← magUnits_f1]
  exact roundMag_exact hpos infMag_finite_lt_f1.le

/-- From a floor of 0.0 the UP ramp is the ratio, at most 1.0. -/
theorem rampUp_from_zero {st : Regs} {T : U32} (hT : T ≠ 0) (hf : st.floorGain = f0) (n : Nat) :
    ∃ u, rampUp st n T = .ok u ∧ u.toNat = min (rampQ n T).toNat f1.toNat := by
  obtain ⟨u, hu, hpat⟩ := rampUp_pattern hT (hf ▸ inUnit_f0) n
  refine ⟨u, hu, ?_⟩
  rw [hpat, hf, f0_toNat, magUnits_zero, Nat.zero_add, roundMag_magUnits (rampQ_le_infMag hT n)]

theorem rampUp_from_zero_within {st : Regs} {T : U32} {n : Nat} (hf : st.floorGain = f0) (h : n < T.toNat) :
    rampUp st n T = .ok (rampQ n T) := by
  have hT : T ≠ 0 := by
    rintro rfl
    exact absurd h (Nat.not_lt_zero n)
  obtain ⟨u, hu, hpat⟩ := rampUp_from_zero hT hf n
  rw [min_eq_left ((rampQ_mono hT h.le).trans (rampQ_self hT).le)] at hpat
  exact hu.trans (congrArg _ (BitVec.eq_of_toNat_eq hpat))

theorem rampUp_from_zero_past {st : Regs} {T : U32} {n : Nat} (hf : st.floorGain = f0) (h : T.toNat ≤ n) :
    rampUp st n T = .ok f1 := by
  by_cases hT : T = 0
  · rw [hT, rampUp_zero]
  · obtain ⟨u, hu, hpat⟩ := rampUp_from_zero hT hf n
    rw [min_eq_right ((rampQ_self hT).ge.trans (rampQ_mono hT h))] at hpat
    exact hu.trans (congrArg _ (BitVec.eq_of_toNat_eq hpat))

/-- Settles O45: the envelope stays 0, below every threshold, so every frame is an UP frame of the phase entered on
frame 1. -/
theorem silentCompressorRampsToOne : Obligations.SilentCompressorRampsToOne := by
  intro a r t e f ht hpos he hf1 hf
  obtain ⟨st, out, hloop, h⟩ := frameLoop_silent_induction (P := SilentComp r t) (SilentComp.step ht) f
    (silentComp_construct a r ⟨hpos, he⟩) (by omega)
  rw [Nat.zero_add] at h
  have hstart : st.phaseStart = 1 := h.phaseStart.trans (if_neg (by omega))
  have hgain := h.gain (by omega)
  refine ⟨st, out, hloop, phase_of_phaseStart_ne (hstart ▸ by decide), h.frameIndex, hstart, fun hle => ?_, fun hge => ?_⟩
  · exact Except.ok.inj (hgain.symm.trans (rampUp_from_zero_within h.floorGain (by omega)))
  · exact Except.ok.inj (hgain.symm.trans (rampUp_from_zero_past h.floorGain (by omega)))

/-! The Gate. -/

/-- With `ceilGain` = 1.0 nothing is left of the DOWN ramp (R76). -/
theorem rampDown_of_ceil_one {st : Regs} (hc : st.ceilGain = f1) (n : Nat) (T : U32) : rampDown st n T = .ok f0 := by
  by_cases hT : T = 0
  · rw [hT, rampDown_zero]
  · obtain ⟨w, hw, hpat⟩ := rampDown_pattern hT (hc ▸ inUnit_f1) n
    rw [hc, magUnits_f1, Nat.sub_eq_zero_of_le (magUnits_roundMag_le_one _), roundMag_zero] at hpat
    exact hw.trans (congrArg _ (BitVec.eq_of_toNat_eq (hpat.trans f0_toNat.symm)))

/-- The gain of a closing frame, by the counts that the frame leaves (R93). -/
theorem GateDownFrame.held {st st' : Regs} (h : GateDownFrame st st') (hlt : elapsedDown st' < st.hold.toNat) :
    st'.gain = st.gain := Except.ok.inj (h.gain.symm.trans (if_pos hlt))

theorem GateDownFrame.ramp {st st' : Regs} (h : GateDownFrame st st') (hge : ¬elapsedDown st' < st.hold.toNat) :
    rampDown st' (elapsedDown st' - st.hold.toNat) st.release = .ok st'.gain := (if_neg hge).symm.trans h.gain

/-- A new Gate after `f` silent frames. -/
structure SilentGate (h t : U32) (f : Nat) (st : Regs) : Prop extends SilentRun f st where
  variant : st.variant = .gate
  hold : st.hold = h
  threshold : st.threshold = t
  ceilGain : st.ceilGain = if f = 0 then f0 else f1
  phaseEnd : st.phaseEnd = if f = 0 then 0 else 1
  gain : st.gain = if f ≤ h.toNat then f1 else f0

theorem silentGate_construct (a h r : U32) {t : U32} {e : F64} (he : 0 < e.toNat ∧ InUnit e) :
    SilentGate h t 0 (construct .gate a r h t e) where
  legal := legal_construct he nofun
  envelope := rfl
  frameIndex := rfl
  variant := rfl
  hold := rfl
  threshold := rfl
  ceilGain := rfl
  phaseEnd := rfl
  gain := (if_pos (Nat.zero_le _)).symm

/-- No threshold is below an envelope of 0. -/
theorem gateSelect_of_zero {st : Regs} (henv : st.envelope = f0) : gateSelect st = .ok false := by
  have hT := (toF_u32_lt_infMag st.threshold).le
  have h0 : f0.toNat ≤ infMag := f0_toNat ▸ Nat.zero_le _
  refine unlessNaN_ok.2 ⟨henv ▸ isNaN_of_le h0, isNaN_of_le hT, ?_⟩
  rw [fgtOrdered, henv, fltOrdered_of_le hT h0, f0_toNat]
  exact decide_eq_false (Nat.not_lt_zero _)

theorem SilentGate.step {h t : U32} {f : Nat} {st : Regs} (hg : SilentGate h t f st) (hf : f < 2 ^ 64 - 1) :
    ∃ st' o, frameStep st 0 = .ok (st', o) ∧ SilentGate h t (f + 1) st' := by
  obtain ⟨st', o, hstep⟩ := frameStep_answers hg.legal (hg.frameIndex_lt hf) 0
  have hrun := hg.next hf hstep
  have hsame := frameStep_sameParams hstep
  have hgate : gateStep st 0 = .ok (st', o) := by rwa [frameStep, hg.variant] at hstep
  obtain ⟨up, hup, hbranch, -⟩ := gateStep_ok hgate
  cases hup.symm.trans (gateSelect_of_zero hg.atBranch_envelope)
  obtain ⟨-, hframe⟩ := gateDown_follows hbranch
  have hend : st'.phaseEnd = 1 := hframe.phaseEnd.trans (hg.entry hg.phaseEnd)
  have hceil : st'.ceilGain = f1 := by
    rw [hframe.ceilGain, envUpdate_phaseEnd, frameAdvance_phaseEnd, envUpdate_ceilGain, frameAdvance_ceilGain,
      hg.phaseEnd, hg.ceilGain]
    by_cases h0 : f = 0
    · rw [if_pos h0, if_pos rfl, if_pos h0, fsub_f1_f0]
    · rw [if_neg h0, if_neg (by decide), if_neg h0]
  have helapsed : elapsedDown st' = (f : Int) := by
    have hone : (1 : U64).toNat = 1 := rfl
    rw [elapsedDown, hrun.frameIndex, hend, hone]
    omega
  have hhold : (envUpdate 0 (frameAdvance st)).hold.toNat = h.toNat := congrArg BitVec.toNat hg.hold
  refine ⟨st', o, hstep, { hrun with
    variant := hsame.variant.trans hg.variant
    hold := hsame.hold.trans hg.hold
    threshold := hsame.threshold.trans hg.threshold
    ceilGain := hceil.trans (if_neg (Nat.succ_ne_zero f)).symm
    phaseEnd := hend.trans (if_neg (Nat.succ_ne_zero f)).symm
    gain := ?_ }⟩
  by_cases hlt : f < h.toNat
  · rw [hframe.held (by omega), envUpdate_gain, frameAdvance_gain, hg.gain, if_pos hlt.le,
      if_pos (Nat.succ_le_of_lt hlt)]
  · have hramp := hframe.ramp (by omega)
    have hcount : elapsedDown st' - (envUpdate 0 (frameAdvance st)).hold.toNat = ((f - h.toNat : Nat) : Int) := by omega
    rw [hcount, rampDown_of_ceil_one hceil] at hramp
    rw [if_neg (by omega)]
    exact (Except.ok.inj hramp).symm

/-- Settles O46: the envelope stays 0, above no threshold, so every frame is a DOWN frame of the phase entered on frame 1,
and that entry turned `ceilGain` from 0.0 to 1.0. -/
theorem silentGateHoldsThenCloses : Obligations.SilentGateHoldsThenCloses := by
  intro a h r t e f hpos he hf1 hf
  obtain ⟨st, out, hloop, hg⟩ := frameLoop_silent_induction (P := SilentGate h t) SilentGate.step f
    (silentGate_construct a h r ⟨hpos, he⟩) (by omega)
  rw [Nat.zero_add] at hg
  have hend : st.phaseEnd = 1 := hg.phaseEnd.trans (if_neg (by omega))
  have hne : st.phaseEnd ≠ 0 := hend ▸ by decide
  have hstart : st.phaseStart = 0 := (phaseCounter_zero_of_legal hg.legal).resolve_right hne
  refine ⟨st, out, hloop, phase_of_phaseEnd_ne hstart hne, hg.frameIndex, hend, fun hle => ?_, fun hge => ?_⟩
  · exact hg.gain.trans (if_pos hle)
  · exact hg.gain.trans (if_neg (by omega))

end Sys2Proof.Proofs
end
